-- ==== Sys2Proof/Word.lean ====
section
/-! DEFINITION. The widths of the machine (spec/00_scope.md rule R5): a data byte, a 4-bit address or instruction half, the 9-bit
internal bus. All are unsigned (rule R7). With fixed-width types the width invariant of rule R23 holds by construction. -/

namespace Sys2Proof

/-- A data byte: `A`, `B`, `OUT`, one memory cell, one instruction (R5). -/
abbrev Byte := BitVec 8

/-- A 4-bit value: `MAR`, `PC`, either half of `IR`, an operand (R5). -/
abbrev Nibble := BitVec 4

/-- The 9-bit internal bus value `BUS` (R5, R21). -/
abbrev BusWord := BitVec 9

end Sys2Proof
end

