-- ==== Sys2Proof/Syntax.lean ====
section
/-! DEFINITION. The instruction set whole: one constructor per row of spec/opcode_table.json, the five reserved opcodes included
(spec/30_encoding.md rule R46). Every constructor carries the low nibble of its byte, since Fetch copies it into `IR.operand`
whether or not the operation uses it (rules R44, R49, R54). -/

namespace Sys2Proof

inductive Instr where
  /-- Opcode 0: no operation; the nibble is ignored (R49, R80). -/
  | nop (x : Nibble)
  /-- Opcode 1: load `A` from cell `a` (R66). -/
  | lda (a : Nibble)
  /-- Opcode 2: add cell `a` to `A` (R69). -/
  | add (a : Nibble)
  /-- Opcode 3: subtract cell `a` from `A` (R70). -/
  | sub (a : Nibble)
  /-- Opcode 4: store `A` in cell `a` (R67). -/
  | sta (a : Nibble)
  /-- Opcode 5: load the instruction byte, whose low nibble is `v`, into `A` (R45, R68). -/
  | ldi (v : Nibble)
  /-- Opcode 6: jump to `a` (R75). -/
  | jmp (a : Nibble)
  /-- Opcode 7: jump to `a` if `CF`, and clear `CF` (R76). -/
  | jc (a : Nibble)
  /-- Opcode 8: jump to `a` if `ZF`, and clear `ZF` (R77). -/
  | jz (a : Nibble)
  /-- Opcode 9: reserved, the nibble is ignored (R48, R83). -/
  | reserved9 (x : Nibble)
  /-- Opcode 10: reserved (R48, R83). -/
  | reserved10 (x : Nibble)
  /-- Opcode 11: reserved (R48, R83). -/
  | reserved11 (x : Nibble)
  /-- Opcode 12: reserved (R48, R83). -/
  | reserved12 (x : Nibble)
  /-- Opcode 13: reserved (R48, R83). -/
  | reserved13 (x : Nibble)
  /-- Opcode 14: copy `A` to `OUT`; the nibble is ignored (R49, R81). -/
  | out (x : Nibble)
  /-- Opcode 15: halt; the nibble is ignored (R49, R82). -/
  | hlt (x : Nibble)
deriving DecidableEq, Repr

end Sys2Proof
end

