-- ==== Sys2Proof/Decode.lean ====
section
/-! DEFINITION. The instruction format and the opcode map (spec/30_encoding.md rules R42 to R49, spec/40_instruction_cycle.md
rules R56, R57), the encoder, the table of masks and matches of spec/opcode_table.json, and the host's decodeTableWord. -/

namespace Sys2Proof

/-! ## The format: high nibble opcode, low nibble operand (R43) -/

/-- `byte[7:4]` (R43). -/
def byteOpcode (w : Byte) : Nibble := w.extractLsb' 4 4

/-- `byte[3:0]` (R43). -/
def byteOperand (w : Byte) : Nibble := w.extractLsb' 0 4

/-- `(opcode << 4) | operand` (R43). -/
def joinByte (opcode operand : Nibble) : Byte := (opcode.setWidth 8 <<< 4) ||| operand.setWidth 8

/-! ## The opcode map -/

/-- Dispatch (R46, R57): the four bits of the opcode, bit 3 first as the table's "encoding" strings write them, select the
operation; the operand takes no part. Total: the five reserved opcodes are named, and none falls through to a neighbour. -/
def decodeFields (opcode operand : Nibble) : Instr :=
  match opcode.getLsbD 3, opcode.getLsbD 2, opcode.getLsbD 1, opcode.getLsbD 0 with
  | false, false, false, false => .nop operand
  | false, false, false, true  => .lda operand
  | false, false, true,  false => .add operand
  | false, false, true,  true  => .sub operand
  | false, true,  false, false => .sta operand
  | false, true,  false, true  => .ldi operand
  | false, true,  true,  false => .jmp operand
  | false, true,  true,  true  => .jc operand
  | true,  false, false, false => .jz operand
  | true,  false, false, true  => .reserved9 operand
  | true,  false, true,  false => .reserved10 operand
  | true,  false, true,  true  => .reserved11 operand
  | true,  true,  false, false => .reserved12 operand
  | true,  true,  false, true  => .reserved13 operand
  | true,  true,  true,  false => .out operand
  | true,  true,  true,  true  => .hlt operand

/-- The instruction of one byte (R42, R47). -/
def decodeByte (w : Byte) : Instr := decodeFields (byteOpcode w) (byteOperand w)

/-- Why a sequence of bytes holds no instruction. -/
inductive DecodeError where
  /-- There is no byte to decode. Every byte value decodes (R47), so this is the only reason. -/
  | noByte
deriving DecidableEq, Repr

/-- The first instruction of a sequence of bytes and the bytes after it: always one byte (R42, R50). -/
def decode : List Byte → Except DecodeError (Instr × List Byte)
  | [] => .error .noByte
  | w :: rest => .ok (decodeByte w, rest)

/-! ## The encoder -/

/-- The opcode column of rule R46. -/
def opcodeOf : Instr → Nibble
  | .nop _ => 0x0#4
  | .lda _ => 0x1#4
  | .add _ => 0x2#4
  | .sub _ => 0x3#4
  | .sta _ => 0x4#4
  | .ldi _ => 0x5#4
  | .jmp _ => 0x6#4
  | .jc _ => 0x7#4
  | .jz _ => 0x8#4
  | .reserved9 _ => 0x9#4
  | .reserved10 _ => 0xA#4
  | .reserved11 _ => 0xB#4
  | .reserved12 _ => 0xC#4
  | .reserved13 _ => 0xD#4
  | .out _ => 0xE#4
  | .hlt _ => 0xF#4

/-- The low nibble of the instruction's byte (R44, R48, R49). -/
def operandOf : Instr → Nibble
  | .nop x | .reserved9 x | .reserved10 x | .reserved11 x | .reserved12 x | .reserved13 x | .out x | .hlt x => x
  | .lda a | .add a | .sub a | .sta a | .jmp a | .jc a | .jz a => a
  | .ldi v => v

/-- The byte of an instruction (R43). -/
def encodeByte (i : Instr) : Byte := joinByte (opcodeOf i) (operandOf i)

/-- The words of an instruction: one byte (R42). -/
def encode (i : Instr) : List Byte := [encodeByte i]

/-! ## The table of spec/opcode_table.json -/

/-- A row of the table: its mnemonic, its match and its mask (R47). -/
structure OpcodeRow where
  mnemonic : String
  matchBits : Byte
  mask : Byte
deriving DecidableEq, Repr

/-- The mnemonic column of spec/opcode_table.json. -/
def mnemonicOf : Instr → String
  | .nop _ => "NOP"
  | .lda _ => "LDA"
  | .add _ => "ADD"
  | .sub _ => "SUB"
  | .sta _ => "STA"
  | .ldi _ => "LDI"
  | .jmp _ => "JMP"
  | .jc _ => "JC"
  | .jz _ => "JZ"
  | .reserved9 _ => "RESERVED_9"
  | .reserved10 _ => "RESERVED_10"
  | .reserved11 _ => "RESERVED_11"
  | .reserved12 _ => "RESERVED_12"
  | .reserved13 _ => "RESERVED_13"
  | .out _ => "OUT"
  | .hlt _ => "HLT"

/-- The sixteen rows, transcribed. -/
def opcodeRows : List OpcodeRow :=
  [⟨"NOP", 0x00#8, 0xF0#8⟩, ⟨"LDA", 0x10#8, 0xF0#8⟩, ⟨"ADD", 0x20#8, 0xF0#8⟩, ⟨"SUB", 0x30#8, 0xF0#8⟩,
   ⟨"STA", 0x40#8, 0xF0#8⟩, ⟨"LDI", 0x50#8, 0xF0#8⟩, ⟨"JMP", 0x60#8, 0xF0#8⟩, ⟨"JC", 0x70#8, 0xF0#8⟩] ++
  [⟨"JZ", 0x80#8, 0xF0#8⟩, ⟨"RESERVED_9", 0x90#8, 0xF0#8⟩, ⟨"RESERVED_10", 0xA0#8, 0xF0#8⟩, ⟨"RESERVED_11", 0xB0#8, 0xF0#8⟩,
   ⟨"RESERVED_12", 0xC0#8, 0xF0#8⟩, ⟨"RESERVED_13", 0xD0#8, 0xF0#8⟩, ⟨"OUT", 0xE0#8, 0xF0#8⟩, ⟨"HLT", 0xF0#8, 0xF0#8⟩]

/-- A byte is of a row: `byte & mask = match` (R47). -/
def rowMatches (r : OpcodeRow) (w : Byte) : Bool := w &&& r.mask == r.matchBits

/-! ## The host's view of the table -/

/-- The one byte of an instruction given as a table word: the low eight of its bits, those above `nbits` zero. -/
def tableByte (nbits w : Nat) : Byte := BitVec.ofNat 8 (w % 2 ^ nbits)

/-- What the decoder reads from a table word. Every instruction is one byte (R42), and the table gives every row eight bits. -/
def decodeTableWord (nbits w : Nat) : Option Instr :=
  match decode [tableByte nbits w] with
  | .ok (i, _) => some i
  | .error _ => none

end Sys2Proof
end

