-- ==== Sys2Proof/Config.lean ====
section
/-! DEFINITION. What is fixed for the machine: the number of cells, the byte an untouched cell holds, the three status values
(spec/00_scope.md rule R5), and the named parameters the spec leaves OPEN (rule R6; spec/92_eei_decisions.md D14, D15, D21), which
are opaque constants: no rule of state reads them, and nothing can be proved of their values. -/

namespace Sys2Proof

/-- The status a cycle returns, three values (R59). The numbers the source gives them are `Machine.statusCode`. -/
inductive Status where
  /-- `Continue`: every implemented operation but HLT. -/
  | cont
  /-- `Halted`: HLT, the normal end of a run (R99). -/
  | halted
  /-- `InvalidOpcode`: a reserved opcode was dispatched, the failure of a run (R98). -/
  | invalidOpcode
deriving DecidableEq, Repr

/-- Sixteen cells, addresses 0 to 15 (R5, R22). -/
def Config.memCells : Nat := 16

/-- What a cell holds that nothing has written: 0x00, the power-up and reset contents (R27, R87, R112). -/
def Config.blankByte : Byte := 0x00#8

/-- OPEN (R6, D21): the Cycle Gate's default duration, "a moderate pacing value"; no number is given. Timing only (log 5). -/
opaque Config.defaultPacing : Nat

/-- OPEN (R6, R120, D15): the number of Cycle Gate waits in the Execute stage of the operation with this opcode, where the source
gives none (every opcode but NOP's). Timing only (log 5). -/
opaque Config.waitsNotGiven : Nibble → Nat

/-- OPEN (D14): the bit pattern of a hardware status signal, if one is built. No rule reads it (log 15). -/
opaque Config.statusEncoding : Status → List Bool

end Sys2Proof
end

