-- ==== Sys2Proof/Machine/State.lean ====
section
/-! DEFINITION. The state of the block, complete (spec/10_state.md rules R10 to R27), its memory as plain data, the reasons a step
could stop (there are none in this machine), and the state right after reset (rules R27, R112). -/

namespace Sys2Proof.Machine

/-- The cells that differ from what an unlisted address reads as (`Config.blankByte`, R27), as (address, byte) pairs. -/
abbrev Memory := List Host.Cell

/-- The canonical form of a memory whose first address may be `lo`: addresses strictly rise, each names one of the 16 cells (R22),
and no cell listed holds what an unlisted one reads as. -/
def Memory.wfFrom : Nat → Memory → Bool
  | _, [] => true
  | lo, (x, v) :: m => decide (lo ≤ x) && decide (x < Config.memCells) && (v != Config.blankByte) && Memory.wfFrom (x + 1) m

/-- The canonical form: equal memories are equal lists. -/
abbrev Memory.wf (m : Memory) : Bool := Memory.wfFrom 0 m

/-- Why a step could stop the machine. NOBODY raises one: the step is total (R62), every address is valid and every cell readable,
writable and executable (R29, R31, R37), nothing traps (R100, R103). `Halted` and `InvalidOpcode` are statuses that a
cycle returns beside its next state (R97 to R99). -/
inductive Fault where
deriving DecidableEq, Repr

/-- Why a step could have no meaning. -/
inductive Refusal where
  /-- Raised only by an arm of `exec` for an instruction that has no meaning yet. No arm raises it: every instruction of the opcode
  table has its meaning. It would be safe: the model would stop where the hardware goes on. -/
  | notModelled (mnemonic : String)
deriving DecidableEq, Repr

/-- The state of the block: the registers, flags, bus and memory of rule R10, and nothing else. The status of a cycle is an output,
stored nowhere (R26): `cycleStatus`. -/
structure State where
  /-- `A`, the accumulator (R11). -/
  a : Byte
  /-- `B`, the secondary register (R12). -/
  b : Byte
  /-- `OUT`, the output register (R13). -/
  out : Byte
  /-- `MAR`, the memory-address register (R19). -/
  mar : Nibble
  /-- `PC`, the program counter (R15). -/
  pc : Nibble
  /-- `IR.opcode` (R20). -/
  irOpcode : Nibble
  /-- `IR.operand` (R20). -/
  irOperand : Nibble
  /-- `CF`, the carry flag (R17). -/
  cf : Bool
  /-- `ZF`, the zero flag (R18). -/
  zf : Bool
  /-- `BUS`, the internal bus value (R21). -/
  bus : BusWord
  /-- `MEM` (R22). -/
  mem : Memory
deriving DecidableEq, Repr

/-- Power-up and reset: everything zero (R27, R112). -/
def State.reset : State :=
  { a := 0x00#8, b := 0x00#8, out := 0x00#8, mar := 0x0#4, pc := 0x0#4, irOpcode := 0x0#4, irOperand := 0x0#4,
    cf := false, zf := false, bus := 0x000#9, mem := [] }

end Sys2Proof.Machine
end

