-- ==== Sys2Proof/Machine/Ops.lean ====
section
/-! DEFINITION. The named operations over memory, registers and the bus; Fetch (spec/40_instruction_cycle.md rules R54, R55); and the
end of a cycle, with the status it returns to the host: all that this machine has in the place of taking an exception
(spec/60_exceptions.md rules R98, R99, R103). There is nothing to return from (rule R104). -/

namespace Sys2Proof.Machine

/-! ## Memory: one byte at a time (R29, R35) -/

/-- The byte at an address; an unlisted address reads as `Config.blankByte`. -/
def cellAt : Memory → Nat → Byte
  | [], _ => Config.blankByte
  | (y, v) :: m, x => if y = x then v else cellAt m x

/-- The memory without an entry for an address. -/
def dropCell (x : Nat) (m : Memory) : Memory := m.filter fun c => c.1 != x

/-- The memory with an entry added in its place. -/
def insertCell (x : Nat) (v : Byte) : Memory → Memory
  | [] => [(x, v)]
  | (y, w) :: m => if x < y then (x, v) :: (y, w) :: m else (y, w) :: insertCell x v m

/-- The memory with a byte stored; storing what an unlisted address reads as removes the entry. -/
def putCell (m : Memory) (x : Nat) (v : Byte) : Memory :=
  if v = Config.blankByte then dropCell x m else insertCell x v (dropCell x m)

/-! ## Registers: one writer for each piece of state -/

def State.setA (s : State) (v : Byte) : State := { s with a := v }
def State.setB (s : State) (v : Byte) : State := { s with b := v }
def State.setOut (s : State) (v : Byte) : State := { s with out := v }
def State.setMar (s : State) (x : Nibble) : State := { s with mar := x }
def State.setPc (s : State) (x : Nibble) : State := { s with pc := x }
def State.setIr (s : State) (opcode operand : Nibble) : State := { s with irOpcode := opcode, irOperand := operand }
def State.setCf (s : State) (f : Bool) : State := { s with cf := f }
def State.setZf (s : State) (f : Bool) : State := { s with zf := f }
def State.setBus (s : State) (v : BusWord) : State := { s with bus := v }
def State.setMem (s : State) (m : Memory) : State := { s with mem := m }

/-- `MemRead(x, 1)` (R7, R35). -/
def readCell (s : State) (x : Nibble) : Byte := cellAt s.mem x.toNat

/-- `MemWrite(x, 1, v)` (R7, R35). -/
def writeCell (s : State) (x : Nibble) (v : Byte) : State := s.setMem (putCell s.mem x.toNat v)

/-! ## The bus (R21) -/

/-- `zext_9` of a byte (R7). -/
def zextByte (v : Byte) : BusWord := v.setWidth 9

/-- `zext_9` of a nibble (R7). -/
def zextNibble (x : Nibble) : BusWord := x.setWidth 9

/-- `BUS[7:0]`. -/
def lowByte (w : BusWord) : Byte := w.extractLsb' 0 8

/-- `BUS[3:0]`. -/
def lowNibble (w : BusWord) : Nibble := w.extractLsb' 0 4

/-- `BUS[7:4]`. -/
def highNibble (w : BusWord) : Nibble := w.extractLsb' 4 4

/-- `BUS <- zext_9(MemRead(MAR, 1))` (R54, R66). -/
def cellToBus (s : State) : State := s.setBus (zextByte (readCell s s.mar))

/-- `MAR <- BUS[3:0]` (R54, R66). -/
def busToMar (s : State) : State := s.setMar (lowNibble s.bus)

/-! ## Fetch (R54, R55) -/

/-- The Fetch stage, the same for every instruction, in the order of rule R54; the waits change nothing (R119). -/
def fetch (s : State) : State :=
  let s := s.setBus (zextNibble s.pc)
  let s := busToMar s
  let s := cellToBus s
  let s := s.setIr (highNibble s.bus) (lowNibble s.bus)
  s.setPc (s.pc + 1#4)

/-! ## The end of a cycle -/

/-- The cycle ends in a state, for every instruction alike. For HLT and a reserved opcode too this is all: nothing is saved, no mode
changes, `PC` is not redirected, no latch is set (R98, R99, R103, R105). -/
def endCycle (s : State) : Host.Outcome State Fault Refusal := .next s

/-- The status each operation returns (R59): the `return` line of its body's rule. An output of the cycle, stored nowhere (R26). -/
def returnedStatus : Instr → Status
  | .nop _ | .lda _ | .add _ | .sub _ | .sta _ | .ldi _ | .jmp _ | .jc _ | .jz _ | .out _ => .cont
  | .hlt _ => .halted
  | .reserved9 _ | .reserved10 _ | .reserved11 _ | .reserved12 _ | .reserved13 _ => .invalidOpcode

/-- The status that the cycle from a state returns: that of the instruction it fetches (R57, R59; log 1). -/
def cycleStatus (s : State) : Status :=
  let t := fetch s
  returnedStatus (decodeFields t.irOpcode t.irOperand)

/-- The source's number of a status (R59). -/
def statusCode : Status → Int
  | .cont => 0
  | .halted => 1
  | .invalidOpcode => -1

/-- `Halted` and `InvalidOpcode` are terminal (R60). -/
def isTerminal : Status → Bool
  | .cont => false
  | .halted => true
  | .invalidOpcode => true

end Sys2Proof.Machine
end

