-- ==== Sys2Proof/Machine/Flags.lean ====
section
/-! DEFINITION. The two flag computations and the 9-bit arithmetic they read (spec/42_arithmetic.md rules R69 to R73). -/

namespace Sys2Proof.Machine

/-- `(A + B) mod 512` (R69). -/
def busSum (x y : Byte) : BusWord := zextByte x + zextByte y

/-- `(A - B) mod 512` (R70). -/
def busDifference (x y : Byte) : BusWord := zextByte x - zextByte y

/-- `CF <- BUS[8]`: the carry of a sum, the borrow of a difference (R69, R70, R72). -/
def carryOf (w : BusWord) : Bool := w.getLsbD 8

/-- `ZF <- (A == 0)`, of the masked 8-bit result (R73). -/
def zeroOf (v : Byte) : Bool := v == 0x00#8

/-- The common end of ADD and SUB: the 9-bit result on the bus, its low byte in `A`, and both flags written (R69, R70). -/
def keepResult (w : BusWord) (s : State) : State :=
  let s := s.setBus w
  let s := s.setA (lowByte s.bus)
  let s := s.setCf (carryOf s.bus)
  s.setZf (zeroOf s.a)

end Sys2Proof.Machine
end

