-- ==== Sys2Proof/Machine/Operands.lean ====
section
/-! DEFINITION. The operand forms (spec/30_encoding.md rule R44). Each begins by "recombining the instruction register into a 9-bit
bus value before masking". A meaning is given the instruction that was decoded from `IR`, so the recombined value is that
instruction's byte (log 12); `Machine/Reference.lean` reads `IR` itself. -/

namespace Sys2Proof.Machine

/-- `BUS <- zext_9((IR.opcode << 4) | IR.operand)` (R44, R63). -/
def recombine (i : Instr) (s : State) : State := s.setBus (zextByte (encodeByte i))

/-- The absolute address operand of LDA, ADD, SUB, STA: `MAR <- operand`, over the bus (R31, R44). -/
def selectAddress (i : Instr) (s : State) : State := busToMar (recombine i s)

/-- The absolute jump target of JMP, JC, JZ: `PC <- operand`, over the bus (R44, R78). -/
def jumpTo (i : Instr) (s : State) : State :=
  let s := recombine i s
  s.setPc (lowNibble s.bus)

/-- `B <- MemRead(MAR, 1)` (R69, R70). -/
def cellToB (s : State) : State := s.setB (readCell s s.mar)

/-- `A <- BUS[7:0]` (R66, R68). -/
def busToA (s : State) : State := s.setA (lowByte s.bus)

/-- `BUS <- zext_9(A)` (R67, R81; the spec's decision D3, log 2). -/
def aToBus (s : State) : State := s.setBus (zextByte s.a)

/-- `OUT <- BUS[7:0]` (R81). -/
def busToOut (s : State) : State := s.setOut (lowByte s.bus)

/-- `MemWrite(MAR, 1, BUS[7:0])` (R67). -/
def busToCell (s : State) : State := writeCell s s.mar (lowByte s.bus)

end Sys2Proof.Machine
end

