-- ==== Sys2Proof/Machine/Arithmetic.lean ====
section
/-! DEFINITION. ADD and SUB (spec/42_arithmetic.md rules R69 to R73): the cell is copied to `B`, then the 9-bit result is formed. There
is no carry-in and no borrow-in. -/

namespace Sys2Proof.Machine

/-- ADD a (R69). -/
def execAdd (a : Nibble) (s : State) : Host.Outcome State Fault Refusal :=
  let s := cellToB (selectAddress (.add a) s)
  endCycle (keepResult (busSum s.a s.b) s)

/-- SUB a (R70). -/
def execSub (a : Nibble) (s : State) : Host.Outcome State Fault Refusal :=
  let s := cellToB (selectAddress (.sub a) s)
  endCycle (keepResult (busDifference s.a s.b) s)

end Sys2Proof.Machine
end

