-- ==== Sys2Proof/Machine/Control.lean ====
section
/-! DEFINITION. NOP, OUT, HLT and the five reserved opcodes (spec/44_nop_out_hlt_reserved.md rules R80 to R83). Their low nibble is
ignored (spec/30_encoding.md rules R48, R49; log 4). HLT and a reserved opcode change nothing
beyond Fetch; that they end a run is said by the status they return (`returnedStatus`), which is stored nowhere: no latch is set
(spec/10_state.md rule R26, spec/60_exceptions.md rule R105). -/

namespace Sys2Proof.Machine

/-- NOP (R80). -/
def execNop (_x : Nibble) (s : State) : Host.Outcome State Fault Refusal := endCycle s

/-- OUT (R81). -/
def execOut (_x : Nibble) (s : State) : Host.Outcome State Fault Refusal := endCycle (busToOut (aToBus s))

/-- HLT (R82, R99). -/
def execHlt (_x : Nibble) (s : State) : Host.Outcome State Fault Refusal := endCycle s

/-- Opcode 9 (R83, R98). -/
def execReserved9 (_x : Nibble) (s : State) : Host.Outcome State Fault Refusal := endCycle s

/-- Opcode 10 (R83, R98). -/
def execReserved10 (_x : Nibble) (s : State) : Host.Outcome State Fault Refusal := endCycle s

/-- Opcode 11 (R83, R98). -/
def execReserved11 (_x : Nibble) (s : State) : Host.Outcome State Fault Refusal := endCycle s

/-- Opcode 12 (R83, R98). -/
def execReserved12 (_x : Nibble) (s : State) : Host.Outcome State Fault Refusal := endCycle s

/-- Opcode 13 (R83, R98). -/
def execReserved13 (_x : Nibble) (s : State) : Host.Outcome State Fault Refusal := endCycle s

end Sys2Proof.Machine
end

