-- ==== Sys2Proof/Machine/Jumps.lean ====
section
/-! DEFINITION. JMP, JC, JZ (spec/43_jumps.md rules R75 to R79). `PC` was incremented by Fetch, so a jump not taken changes nothing; a
conditional jump that is taken clears the flag it tested. -/

namespace Sys2Proof.Machine

/-- JMP a (R75). -/
def execJmp (a : Nibble) (s : State) : Host.Outcome State Fault Refusal :=
  endCycle (jumpTo (.jmp a) s)

/-- JC a (R76). -/
def execJc (a : Nibble) (s : State) : Host.Outcome State Fault Refusal :=
  endCycle (if s.cf then (jumpTo (.jc a) s).setCf false else s)

/-- JZ a (R77). -/
def execJz (a : Nibble) (s : State) : Host.Outcome State Fault Refusal :=
  endCycle (if s.zf then (jumpTo (.jz a) s).setZf false else s)

end Sys2Proof.Machine
end

