-- ==== Sys2Proof/Machine/LoadStore.lean ====
section
/-! DEFINITION. LDA, STA, LDI (spec/41_load_store_immediate.md rules R65 to R68): they move one byte, write no flag, and return
`Continue`. -/

namespace Sys2Proof.Machine

/-- LDA a (R66). -/
def execLda (a : Nibble) (s : State) : Host.Outcome State Fault Refusal :=
  endCycle (busToA (cellToBus (selectAddress (.lda a) s)))

/-- STA a (R67). -/
def execSta (a : Nibble) (s : State) : Host.Outcome State Fault Refusal :=
  endCycle (busToCell (aToBus (selectAddress (.sta a) s)))

/-- LDI v (R45, R68): the whole instruction byte is loaded, not the operand. -/
def execLdi (v : Nibble) (s : State) : Host.Outcome State Fault Refusal :=
  endCycle (busToA (recombine (.ldi v) s))

end Sys2Proof.Machine
end

