-- ==== Sys2Proof/Machine/Dispatch.lean ====
section
/-! DEFINITION. The Execute stage: one arm per instruction (spec/40_instruction_cycle.md rules R57, R58). -/

namespace Sys2Proof.Machine

def exec (i : Instr) (s : State) : Host.Outcome State Fault Refusal :=
  match i with
  | .nop x => Sys2Proof.Machine.execNop x s
  | .lda a => Sys2Proof.Machine.execLda a s
  | .add a => Sys2Proof.Machine.execAdd a s
  | .sub a => Sys2Proof.Machine.execSub a s
  | .sta a => Sys2Proof.Machine.execSta a s
  | .ldi v => Sys2Proof.Machine.execLdi v s
  | .jmp a => Sys2Proof.Machine.execJmp a s
  | .jc a => Sys2Proof.Machine.execJc a s
  | .jz a => Sys2Proof.Machine.execJz a s
  | .reserved9 x => Sys2Proof.Machine.execReserved9 x s
  | .reserved10 x => Sys2Proof.Machine.execReserved10 x s
  | .reserved11 x => Sys2Proof.Machine.execReserved11 x s
  | .reserved12 x => Sys2Proof.Machine.execReserved12 x s
  | .reserved13 x => Sys2Proof.Machine.execReserved13 x s
  | .out x => Sys2Proof.Machine.execOut x s
  | .hlt x => Sys2Proof.Machine.execHlt x s

end Sys2Proof.Machine
end

