-- ==== Sys2Proof/Machine/Step.lean ====
section
/-! DEFINITION. One step is one whole instruction cycle (spec/40_instruction_cycle.md rules R53, R61, R63): Fetch, then the operation
that `IR` selects. -/

namespace Sys2Proof.Machine

/-- Fetch, Dispatch on `IR`, Execute (R53, R63). -/
def step (s : State) : Host.Outcome State Fault Refusal :=
  let t := fetch s
  exec (decodeFields t.irOpcode t.irOperand) t

/-- The state with a table word's instruction in the cell the next step fetches from, and nothing else changed (log 8). -/
def State.withFetchWord (s : State) (nbits w : Nat) : State := writeCell s s.pc (tableByte nbits w)

end Sys2Proof.Machine
end

