-- ==== Sys2Proof/Machine/Reference.lean ====
section
/-! DEFINITION. The reference step function of spec/40_instruction_cycle.md rule R63, transcribed line by line, over the state and with
the status as a second result, as `invoke` gives them. It reads `IR` where the meanings use the decoded instruction, and it is there to be compared with
`invoke`: no other file uses it but the statement that does so. -/

namespace Sys2Proof.Machine

/-- `zext_9((IR.opcode << 4) | IR.operand)`. -/
def recombinedIr (s : State) : BusWord := (s.irOpcode.setWidth 9 <<< 4) ||| s.irOperand.setWidth 9

/-- `step()` of rule R63. -/
def referenceStep (s : State) : State × Status :=
  -- Fetch
  let s := { s with bus := BitVec.ofNat 9 s.pc.toNat }
  let s := { s with mar := BitVec.ofNat 4 s.bus.toNat }
  let s := { s with bus := BitVec.ofNat 9 (readCell s s.mar).toNat }
  let s := { s with irOpcode := BitVec.ofNat 4 (s.bus.toNat / 16) }
  let s := { s with irOperand := BitVec.ofNat 4 s.bus.toNat }
  let s := { s with pc := BitVec.ofNat 4 ((s.pc.toNat + 1) % 16) }
  -- Dispatch and Execute
  match s.irOpcode.toNat with
  | 0 => (s, .cont)
  | 1 =>
    let s := { s with bus := recombinedIr s }
    let s := { s with mar := BitVec.ofNat 4 s.bus.toNat }
    let s := { s with bus := BitVec.ofNat 9 (readCell s s.mar).toNat }
    let s := { s with a := BitVec.ofNat 8 s.bus.toNat }
    (s, .cont)
  | 2 =>
    let s := { s with bus := recombinedIr s }
    let s := { s with mar := BitVec.ofNat 4 s.bus.toNat }
    let s := { s with b := readCell s s.mar }
    let s := { s with bus := BitVec.ofInt 9 (((s.a.toNat : Int) + s.b.toNat) % 512) }
    let s := { s with a := BitVec.ofNat 8 s.bus.toNat }
    let s := { s with cf := decide (256 ≤ s.bus.toNat) }
    let s := { s with zf := decide (s.a.toNat = 0) }
    (s, .cont)
  | 3 =>
    let s := { s with bus := recombinedIr s }
    let s := { s with mar := BitVec.ofNat 4 s.bus.toNat }
    let s := { s with b := readCell s s.mar }
    let s := { s with bus := BitVec.ofInt 9 (((s.a.toNat : Int) - s.b.toNat) % 512) }
    let s := { s with a := BitVec.ofNat 8 s.bus.toNat }
    let s := { s with cf := decide (256 ≤ s.bus.toNat) }
    let s := { s with zf := decide (s.a.toNat = 0) }
    (s, .cont)
  | 4 =>
    let s := { s with bus := recombinedIr s }
    let s := { s with mar := BitVec.ofNat 4 s.bus.toNat }
    let s := { s with bus := BitVec.ofNat 9 s.a.toNat }
    let s := { s with mem := putCell s.mem s.mar.toNat (BitVec.ofNat 8 s.bus.toNat) }
    (s, .cont)
  | 5 =>
    let s := { s with bus := recombinedIr s }
    let s := { s with a := BitVec.ofNat 8 s.bus.toNat }
    (s, .cont)
  | 6 =>
    let s := { s with bus := recombinedIr s }
    let s := { s with pc := BitVec.ofNat 4 s.bus.toNat }
    (s, .cont)
  | 7 =>
    if s.cf = true then
      let s := { s with bus := recombinedIr s }
      let s := { s with pc := BitVec.ofNat 4 s.bus.toNat }
      let s := { s with cf := false }
      (s, .cont)
    else (s, .cont)
  | 8 =>
    if s.zf = true then
      let s := { s with bus := recombinedIr s }
      let s := { s with pc := BitVec.ofNat 4 s.bus.toNat }
      let s := { s with zf := false }
      (s, .cont)
    else (s, .cont)
  | 9 | 10 | 11 | 12 | 13 => (s, .invalidOpcode)
  | 14 =>
    let s := { s with bus := BitVec.ofNat 9 s.a.toNat }
    let s := { s with out := BitVec.ofNat 8 s.bus.toNat }
    (s, .cont)
  -- 15, the only 4-bit value left
  | _ => (s, .halted)

end Sys2Proof.Machine
end

