-- ==== Sys2Proof/Machine/HostMoves.lean ====
section
/-! DEFINITION. What the host can do to the block and see of it between cycles (spec/45_host_interface.md rules R85 to R96), each as
a function on the state, and the events of the block: a cycle or a host move (rule R94; log 8). -/

namespace Sys2Proof.Machine

/-- `reset_registers()` (R86): every register, both flags and the bus, not the memory. -/
def resetRegisters (s : State) : State :=
  { s with
    a := 0x00#8, b := 0x00#8, out := 0x00#8, mar := 0x0#4, pc := 0x0#4, irOpcode := 0x0#4, irOperand := 0x0#4,
    cf := false, zf := false, bus := 0x000#9 }

/-- `reset_memory()` (R87): all 16 cells 0x00. -/
def resetMemory (s : State) : State := s.setMem []

/-- The rest of a load, from cell `n` on; bytes past the sixteenth cell are ignored (R88). -/
def loadFrom : Nat → List Byte → State → State
  | _, [], s => s
  | n, v :: vs, s => if n < Config.memCells then loadFrom (n + 1) vs (writeCell s (BitVec.ofNat 4 n) v) else s

/-- `load(bytes)` (R88): byte i to cell i, from cell 0. -/
def load (bytes : List Byte) (s : State) : State := loadFrom 0 bytes s

/-- `save(capacity)` (R89): the cells in address order, cut to the capacity; `none` is no capacity limit. -/
def save (capacity : Option Nat) (s : State) : List Byte :=
  let cells := (List.range Config.memCells).map fun n => readCell s (BitVec.ofNat 4 n)
  match capacity with
  | none => cells
  | some c => cells.take c

/-- `inspect()` (R91): a pure read of the whole state, which cannot fail (log 14). -/
def inspect (s : State) : State := s

/-- `step() -> status` (R92): one cycle, which returns its status beside the next state (R59, R95). -/
def invoke (s : State) : Host.Outcome (State × Status) Fault Refusal :=
  match step s with
  | .next t => .next (t, cycleStatus s)
  | .fault r => .fault r
  | .refused r => .refused r

/-- The host's moves: those that may change the state (R86, R87, R88, R90), and the pacing setter, which changes nothing in the block
(R96). The moves that only read are `save`, `readCell` and `inspect`. -/
inductive HostMove where
  | resetRegisters
  | resetMemory
  | load (bytes : List Byte)
  | writeCell (x : Nibble) (v : Byte)
  | setPacing (duration : Nat)
deriving DecidableEq, Repr

/-- The effect of a host move on the block. -/
def applyMove : HostMove → State → State
  | .resetRegisters, s => Machine.resetRegisters s
  | .resetMemory, s => Machine.resetMemory s
  | .load bytes, s => Machine.load bytes s
  | .writeCell x v, s => Machine.writeCell s x v
  | .setPacing _, s => s

/-- What can happen to the block at a cycle boundary (R94). -/
inductive Event where
  | cycle
  | host (m : HostMove)
deriving DecidableEq, Repr

/-- The outcome of an event. -/
def applyEvent : Event → State → Host.Outcome State Fault Refusal
  | .cycle, s => step s
  | .host m, s => .next (applyMove m s)

end Sys2Proof.Machine
end

