-- ==== Sys2Proof/Machine/Run.lean ====
section
/-! DEFINITION. A run under the host loop: cycles until the first terminal status, with no host move between them
(spec/45_host_interface.md rules R93, R95; spec/70_reset_and_hazards.md rules R115, R122). The fuel bounds the cycles looked at; the
machine sets no limit (spec/60_exceptions.md rule R110). -/

namespace Sys2Proof.Machine

/-- What the host observes when a cycle has ended: `OUT` and the status (R95). -/
structure Observation where
  out : Byte
  status : Status
deriving DecidableEq, Repr

/-- What the block shows after a cycle: the `OUT` of the state it left and the status it returned (R95). -/
def observe (t : State) (st : Status) : Observation := { out := t.out, status := st }

/-- How a bounded run came out; the observations stand in the order of the cycles. -/
inductive RunResult where
  /-- The last cycle left the final state and returned a terminal status, the result of the run (R122). -/
  | ended (final : State) (result : Status) (seen : List Observation)
  /-- The fuel was used up with every status `Continue`. -/
  | running (now : State) (seen : List Observation)
  /-- A step gave no next state; no step of this machine does (R62). -/
  | stopped (seen : List Observation)
deriving DecidableEq, Repr

/-- The result of a run whose first cycle showed `o`. -/
def seenFirst (o : Observation) : RunResult → RunResult
  | .ended s st seen => .ended s st (o :: seen)
  | .running s seen => .running s (o :: seen)
  | .stopped seen => .stopped (o :: seen)

/-- At most `k` cycles of a run (R122). -/
def run : Nat → State → RunResult
  | 0, s => .running s []
  | k + 1, s =>
    match invoke s with
    | .next (t, st) => if isTerminal st then .ended t st [observe t st] else seenFirst (observe t st) (run k t)
    | .fault _ => .stopped []
    | .refused _ => .stopped []

/-- What the host does before a run (R115): reset the registers, reset the memory, load the image. -/
def boot (image : List Byte) (s : State) : State := load image (resetMemory (resetRegisters s))

end Sys2Proof.Machine
end

