-- ==== Sys2Proof/Safety.lean ====
section
/-! DEFINITION. What claims about this machine speak of: the invariant of its states, and how a run ends
(spec/70_reset_and_hazards.md rule R122). -/

namespace Sys2Proof.Safety

open Sys2Proof.Machine

/-- The opcode, 0 to 15, of the byte the next cycle fetches (R43, R54). -/
def opcodeAt (s : State) : Nat := (readCell s s.pc).toNat / 16

/-- The operand, 0 to 15, of the byte the next cycle fetches (R43, R54). -/
def operandAt (s : State) : Nat := (readCell s s.pc).toNat % 16

/-- From `s` to `t` only what Fetch writes has changed (R54). -/
def OnlyFetched (s t : State) : Prop :=
  t.bus.toNat = (readCell s s.pc).toNat ∧ t.mar = s.pc ∧ t.irOpcode.toNat = opcodeAt s ∧ t.irOperand.toNat = operandAt s ∧
    t.pc.toNat = (s.pc.toNat + 1) % 16 ∧ t.a = s.a ∧ t.b = s.b ∧ t.out = s.out ∧ t.cf = s.cf ∧ t.zf = s.zf ∧ t.mem = s.mem

/-- Bit 8 of the bus is set only by an ADD with carry or a SUB with borrow (R64), so `CF` is set and the last instruction was one of
the two. -/
def BusBitEightFromAlu (s : State) : Prop := s.bus.getLsbD 8 = true → s.cf = true ∧ (s.irOpcode = 0x2#4 ∨ s.irOpcode = 0x3#4)

/-- The invariant of the states between cycles: the memory is in canonical form, and rule R64 holds of the bus. -/
def Inv (s : State) : Prop := s.mem.wf = true ∧ BusBitEightFromAlu s

/-- A run from `s` comes to its normal end (R122). -/
def Halts (s : State) : Prop := ∃ k t seen, run k s = .ended t .halted seen

/-- A run from `s` fails (R122). -/
def Fails (s : State) : Prop := ∃ k t seen, run k s = .ended t .invalidOpcode seen

/-- A safe start: no run from it fails, whether or not it ends (R93: a failure is distinct from normal termination). -/
def Safe (s : State) : Prop := ¬ Fails s

end Sys2Proof.Safety
end

