-- ==== Sys2Proof/Certificates/Slice0/Obligations.lean ====
section
/-! DEFINITION. What is stated of the machine, for the provers. Each docstring names the rules of spec/ it formalises. A statement that
rests on a reading the spec marks as its own decision says so, with the entry of the assumption log. -/

open Sys2Proof Sys2Proof.Machine Sys2Proof.Safety

/-! ## Encoding -/

/-- Decoding an encoded instruction gives it back, whatever bytes follow: no bit of an encoding is dropped (R43, R46). -/
def Obligations.DecodeOfEncodeGivesInstruction : Prop :=
  ∀ (i : Instr) (rest : List Byte), decode (encode i ++ rest) = .ok (i, rest)

/-- Every byte is the encoding of exactly one instruction, the one it decodes to (R47). -/
def Obligations.EveryByteEncodesOneInstruction : Prop :=
  ∀ w : Byte, ∃ i, decode [w] = .ok (i, []) ∧ encode i = [w] ∧ ∀ j, encode j = [w] → j = i

/-- Bytes written out from the encoding patterns of rule R46, one or more of each family, decode to what they stand for. -/
def Obligations.WrittenOutBytesDecode : Prop :=
  decode [0b00000000#8] = .ok (.nop 0x0#4, []) ∧ decode [0b00011111#8] = .ok (.lda 0xF#4, []) ∧
  decode [0b00101110#8] = .ok (.add 0xE#4, []) ∧ decode [0b00111101#8] = .ok (.sub 0xD#4, []) ∧
  decode [0b01001111#8] = .ok (.sta 0xF#4, []) ∧ decode [0b01010011#8] = .ok (.ldi 0x3#4, []) ∧
  decode [0b01100000#8] = .ok (.jmp 0x0#4, []) ∧ decode [0b01111001#8] = .ok (.jc 0x9#4, []) ∧
  decode [0b10000110#8] = .ok (.jz 0x6#4, []) ∧ decode [0b10100111#8] = .ok (.reserved10 0x7#4, []) ∧
  decode [0b11100000#8] = .ok (.out 0x0#4, []) ∧ decode [0b11110000#8] = .ok (.hlt 0x0#4, [])

/-- Each byte matches the mask and match of exactly one row of the opcode table, and decodes to that row's operation (R46, R47). -/
def Obligations.EachByteMatchesOneOpcodeRow : Prop :=
  ∀ w : Byte, (opcodeRows.filter fun r => rowMatches r w).map OpcodeRow.mnemonic = [mnemonicOf (decodeByte w)]

/-! ## The cycle -/

/-- A step runs the instruction that the byte at `PC` decodes to, on the state that Fetch leaves (R53, R57). -/
def Obligations.StepRunsDecodedInstruction : Prop :=
  ∀ (s : State) (i : Instr), decode [readCell s s.pc] = .ok (i, []) → step s = exec i (fetch s)

/-- Fetch: the bus takes the byte at `PC`, `MAR` the old `PC`, `IR` the byte's nibbles, `PC` the next address modulo 16, and nothing
else changes; every cycle begins with it (R54). -/
def Obligations.FetchWritesBusMarIrAndPc : Prop :=
  ∀ s : State, OnlyFetched s (fetch s) ∧ step s = exec (decodeFields (fetch s).irOpcode (fetch s).irOperand) (fetch s)

/-- Every invocation ends with a next state, that of the step, and returns the status of the fetched opcode: `Halted` for 15,
`InvalidOpcode` for 9 to 13, `Continue` for the rest (R59, R62, R92; log 1). -/
def Obligations.EveryCycleReturnsItsOpcodesStatus : Prop :=
  ∀ s : State, ∃ t, step s = .next t ∧ invoke s = .next (t,
    if opcodeAt s = 15 then .halted else if 9 ≤ opcodeAt s ∧ opcodeAt s ≤ 13 then .invalidOpcode else .cont)

/-- An invocation is the reference step function of rule R63, state and status, in every state; its state is the step's. `BUS` after
LDA, STA and OUT is in it by the spec's decision D3 (log 2). -/
def Obligations.StepIsTheReferenceFunction : Prop :=
  ∀ s : State, invoke s = .next (referenceStep s) ∧ step s = .next (referenceStep s).1

/-! ## The instructions: what each does, and its frame

Each is an equation for the whole next state: a field that is not named is unchanged, every cell of memory included where `mem` is not
named. -/

/-- LDA a: `MAR` takes the operand, `A` the cell's byte; no flag changes; the status is `Continue` (R66). Nothing is said here of `BUS`.
That nothing else changes is the spec's closed reading D22 (log 3). -/
def Obligations.LdaLoadsCell : Prop :=
  ∀ (a : Nibble) (s : State), returnedStatus (.lda a) = .cont ∧ ∃ u : BusWord,
    exec (.lda a) s = .next { s with mar := a, a := readCell s a, bus := u }

/-- STA a: `MAR` takes the operand, cell `a` takes `A`, every other cell reads as before, and no register but `MAR` and `BUS` changes;
the status is `Continue` (R67). Nothing is said here of the value of `BUS`. That nothing else changes is the spec's closed reading D22
(log 3). -/
def Obligations.StaStoresAccumulator : Prop :=
  ∀ (a : Nibble) (s : State), returnedStatus (.sta a) = .cont ∧ ∃ (m : Memory) (u : BusWord),
    exec (.sta a) s = .next { s with mar := a, mem := m, bus := u } ∧
    cellAt m a.toNat = s.a ∧ ∀ x : Nibble, x ≠ a → cellAt m x.toNat = readCell s x

/-- LDI v: the byte is `0x50 | v`, `A` takes that whole byte, not `v`, and `BUS` holds it; the status is `Continue` (R68). That nothing
else changes, `CF` and `B` among it, is the spec's closed reading D22 (log 3). -/
def Obligations.LdiLoadsInstructionByte : Prop :=
  ∀ (v : Nibble) (s : State),
    decodeByte (0x50#8 ||| v.setWidth 8) = .ldi v ∧ returnedStatus (.ldi v) = .cont ∧
    exec (.ldi v) s = .next { s with a := BitVec.ofNat 8 (80 + v.toNat), bus := BitVec.ofNat 9 (80 + v.toNat) }

/-- ADD a: `B` takes the cell's byte, `BUS` the 9-bit sum, `A` its low 8 bits, `CF` its bit 8, `ZF` whether the new `A` is 0, `MAR` the
operand; nothing else changes; the status is `Continue` (R69). -/
def Obligations.AddWritesSumAndFlags : Prop :=
  ∀ (a : Nibble) (s : State), ∃ w : BusWord,
    decodeByte (0x20#8 ||| a.setWidth 8) = .add a ∧ returnedStatus (.add a) = .cont ∧
    w.toNat = s.a.toNat + (readCell s a).toNat ∧
    exec (.add a) s = .next { s with
      mar := a, b := readCell s a, bus := w, a := BitVec.ofNat 8 w.toNat, cf := w.getLsbD 8,
      zf := decide (w.toNat % 256 = 0) }

/-- SUB a: as ADD with the difference modulo 512 (R70). -/
def Obligations.SubWritesDifferenceAndFlags : Prop :=
  ∀ (a : Nibble) (s : State), ∃ w : BusWord,
    decodeByte (0x30#8 ||| a.setWidth 8) = .sub a ∧ returnedStatus (.sub a) = .cont ∧
    (w.toNat : Int) = ((s.a.toNat : Int) - (readCell s a).toNat) % 512 ∧
    exec (.sub a) s = .next { s with
      mar := a, b := readCell s a, bus := w, a := BitVec.ofNat 8 w.toNat, cf := w.getLsbD 8,
      zf := decide (w.toNat % 256 = 0) }

/-- The carry law: after ADD `CF` says that the sum exceeds 255, after SUB that the cell's byte exceeds the old `A` (R72). -/
def Obligations.CarryLawOfAddAndSub : Prop :=
  ∀ (a : Nibble) (s : State),
    (∃ t, exec (.add a) s = .next t ∧ (t.cf = true ↔ 256 ≤ s.a.toNat + (readCell s a).toNat)) ∧
    (∃ t, exec (.sub a) s = .next t ∧ (t.cf = true ↔ s.a.toNat < (readCell s a).toNat))

/-- The zero law: `ZF` says that the masked result is 0: after ADD that the sum is 0 or 256, after SUB that the operands are equal
(R73). -/
def Obligations.ZeroLawOfAddAndSub : Prop :=
  ∀ (a : Nibble) (s : State),
    (∃ t, exec (.add a) s = .next t ∧ (t.zf = true ↔ t.a = 0#8) ∧
      (t.zf = true ↔ s.a.toNat + (readCell s a).toNat = 0 ∨ s.a.toNat + (readCell s a).toNat = 256)) ∧
    (∃ t, exec (.sub a) s = .next t ∧ (t.zf = true ↔ t.a = 0#8) ∧ (t.zf = true ↔ s.a = readCell s a))

/-- JMP a: `PC` takes the operand and `BUS` the instruction byte; the status is `Continue` (R75). That nothing else changes, `CF`, `B`
and `MAR` among it, is the spec's closed reading D22 (log 3). -/
def Obligations.JmpGoesToTarget : Prop :=
  ∀ (a : Nibble) (s : State),
    decodeByte (0x60#8 ||| a.setWidth 8) = .jmp a ∧ returnedStatus (.jmp a) = .cont ∧
    exec (.jmp a) s = .next { s with pc := a, bus := BitVec.ofNat 9 (96 + a.toNat) }

/-- JC a and JZ a: with the flag set, `PC` takes the operand and the flag is cleared; with the flag clear, nothing changes; the status is
`Continue` either way (R76, R77). That the other flag is untouched is the spec's closed reading D22 (log 3). -/
def Obligations.ConditionalJumpsTestTheirFlag : Prop :=
  ∀ (a : Nibble) (s : State),
    returnedStatus (.jc a) = .cont ∧ returnedStatus (.jz a) = .cont ∧
    exec (.jc a) s = .next (if s.cf = true then { s with pc := a, cf := false, bus := BitVec.ofNat 9 (112 + a.toNat) } else s) ∧
    exec (.jz a) s = .next (if s.zf = true then { s with pc := a, zf := false, bus := BitVec.ofNat 9 (128 + a.toNat) } else s)

/-- OUT: `OUT` takes `A`, and nothing else changes but `BUS`, of which nothing is said here; the status is `Continue`, whatever the low
nibble (R81). That nothing else changes is the spec's closed reading D22 (log 3), that the nibble is ignored its decision D4 (log 4). -/
def Obligations.OutShowsAccumulator : Prop :=
  ∀ (x : Nibble) (s : State), returnedStatus (.out x) = .cont ∧ ∃ u : BusWord,
    exec (.out x) s = .next { s with out := s.a, bus := u }

/-- NOP, HLT and the five reserved opcodes complete, change nothing that Fetch left, and return `Continue`, `Halted` and `InvalidOpcode`,
whatever their low nibble (R80, R82, R83). That the low nibble is ignored is the spec's decision D4, D19 (log 4). -/
def Obligations.NopHltAndReservedChangeNothing : Prop :=
  ∀ (x : Nibble) (s : State),
    (exec (.nop x) s = .next s ∧ returnedStatus (.nop x) = .cont) ∧
    (exec (.hlt x) s = .next s ∧ returnedStatus (.hlt x) = .halted) ∧
    (exec (.reserved9 x) s = .next s ∧ returnedStatus (.reserved9 x) = .invalidOpcode) ∧
    (exec (.reserved10 x) s = .next s ∧ returnedStatus (.reserved10 x) = .invalidOpcode) ∧
    (exec (.reserved11 x) s = .next s ∧ returnedStatus (.reserved11 x) = .invalidOpcode) ∧
    (exec (.reserved12 x) s = .next s ∧ returnedStatus (.reserved12 x) = .invalidOpcode) ∧
    (exec (.reserved13 x) s = .next s ∧ returnedStatus (.reserved13 x) = .invalidOpcode)

/-- THE MODEL'S CHOICE among what the source leaves open (the spec's decision D3, rule R64; log 2): LDA leaves on `BUS` the byte it
loads, STA and OUT the accumulator. -/
def Obligations.BusAfterLdaStaAndOut : Prop :=
  ∀ (x : Nibble) (s : State),
    (∃ t, exec (.lda x) s = .next t ∧ t.bus.toNat = (readCell s x).toNat) ∧
    (∃ t, exec (.sta x) s = .next t ∧ t.bus.toNat = s.a.toNat) ∧
    (∃ t, exec (.out x) s = .next t ∧ t.bus.toNat = s.a.toNat)

/-! ## Whole cycles -/

/-- A cycle of NOP (bytes 0x00 to 0x0F), of a reserved opcode (0x90 to 0xDF) or of HLT (0xF0 to 0xFF) makes Fetch's writes and no
other, and returns its status (R80, R82, R83). That the low nibble is ignored is the spec's decision D4, D19 (log 4), and that `MAR` and
`BUS` are Fetch's after a reserved opcode is its resolution C1 (log 11). -/
def Obligations.NopReservedAndHltCyclesOnlyFetch : Prop :=
  ∀ s : State, ∃ t st, invoke s = .next (t, st) ∧
    ((readCell s s.pc).toNat ≤ 0x0F → OnlyFetched s t ∧ st = .cont) ∧
    (0x90 ≤ (readCell s s.pc).toNat → (readCell s s.pc).toNat ≤ 0xDF → OnlyFetched s t ∧ st = .invalidOpcode) ∧
    (0xF0 ≤ (readCell s s.pc).toNat → OnlyFetched s t ∧ st = .halted)

/-- The one-shot property of JC (opcode 7) and JZ (opcode 8), of a whole cycle: taken, `PC` is the operand and the flag 0; not taken,
`PC` is the next address and both flags are as before; the other flag, `A`, `B`, `OUT` and memory never change and `MAR` is as Fetch
wrote it; and a flag that is 0 stays 0 until an ADD or SUB sets it
(R79). That the other flag is kept, and that no other instruction sets a flag, rests for `CF` on the spec's closed reading D22 (log 3). -/
def Obligations.ConditionalJumpsAreOneShot : Prop :=
  ∀ s : State, ∃ t, step s = .next t ∧
    (opcodeAt s = 7 → t.cf = false ∧ t.zf = s.zf ∧ t.pc.toNat = if s.cf = true then operandAt s else (s.pc.toNat + 1) % 16) ∧
    (opcodeAt s = 8 → t.zf = false ∧ t.cf = s.cf ∧ t.pc.toNat = if s.zf = true then operandAt s else (s.pc.toNat + 1) % 16) ∧
    (opcodeAt s = 7 ∨ opcodeAt s = 8 → t.a = s.a ∧ t.b = s.b ∧ t.out = s.out ∧ t.mar = s.pc ∧ t.mem = s.mem) ∧
    (s.cf = false → t.cf = true → opcodeAt s = 2 ∨ opcodeAt s = 3) ∧
    (s.zf = false → t.zf = true → opcodeAt s = 2 ∨ opcodeAt s = 3)

/-- After any cycle `PC` is the operand if a jump was taken and else the next address modulo 16; `MAR` is the operand after a data
access and else the address fetched from; `IR` is the fetched byte (R15, R19, R20, R55). That an instruction which does not name `MAR`
keeps Fetch's value is the spec's closed reading D22 (log 3), and that a reserved opcode does its resolution C1 (log 11). -/
def Obligations.PcMarAndIrAfterACycle : Prop :=
  ∀ s : State, ∃ t, step s = .next t ∧
    (t.pc.toNat = if opcodeAt s = 6 ∨ (opcodeAt s = 7 ∧ s.cf = true) ∨ (opcodeAt s = 8 ∧ s.zf = true) then operandAt s
      else (s.pc.toNat + 1) % 16) ∧
    (t.mar.toNat = if 1 ≤ opcodeAt s ∧ opcodeAt s ≤ 4 then operandAt s else s.pc.toNat) ∧
    t.irOpcode.toNat = opcodeAt s ∧ t.irOperand.toNat = operandAt s

/-- Only these cycles write these: `A` LDA, ADD, SUB, LDI; `B` ADD, SUB; `CF` ADD, SUB, JC; `ZF` ADD, SUB, JZ; a cell only STA, and only
the cell its operand names (R11, R12, R17, R18, R22, R30). It rests on the spec's closed reading D22 (log 3). -/
def Obligations.OnlyTheNamedInstructionsWrite : Prop :=
  ∀ s : State, ∃ t, step s = .next t ∧
    (t.a ≠ s.a → opcodeAt s = 1 ∨ opcodeAt s = 2 ∨ opcodeAt s = 3 ∨ opcodeAt s = 5) ∧
    (t.b ≠ s.b → opcodeAt s = 2 ∨ opcodeAt s = 3) ∧
    (t.cf ≠ s.cf → opcodeAt s = 2 ∨ opcodeAt s = 3 ∨ opcodeAt s = 7) ∧
    (t.zf ≠ s.zf → opcodeAt s = 2 ∨ opcodeAt s = 3 ∨ opcodeAt s = 8) ∧
    ∀ x : Nibble, readCell t x = if opcodeAt s = 4 ∧ operandAt s = x.toNat then s.a else readCell s x

/-- The OUT register: of the instructions only an OUT cycle writes it, with `A`; of the host's moves only the register reset, with 0;
no instruction reads it, so that a cycle from a state with another `OUT` ends the same but for `OUT`; and the host observes the value
that a cycle leaves (R13). -/
def Obligations.OutRegisterIsWriteOnly : Prop :=
  ∀ s : State, (∀ m : HostMove, (applyMove m s).out = if m = .resetRegisters then 0x00#8 else s.out) ∧ ∃ t, step s = .next t ∧
    (t.out = if opcodeAt s = 14 then s.a else s.out) ∧ (observe t (cycleStatus s)).out = t.out ∧
    ∀ v : Byte, step { s with out := v } = .next { t with out := if opcodeAt s = 14 then s.a else v }

/-- What a program can observe depends on `A`, `PC`, `CF`, `ZF` and memory alone: from two states that agree on these, an invocation
returns the same status and a state that agrees on them and on `MAR`, `IR` and `BUS`. So the old `B`, `OUT`, `MAR`, `IR` and `BUS`, the
residue of a terminal cycle too, change nothing a later cycle computes (R12, R25, R105; that no latch exists is the spec's decision D5,
log 6; `BUS` after LDA, STA and OUT is D3, log 2). -/
def Obligations.CycleReadsOnlyAPcFlagsAndMemory : Prop :=
  ∀ s s' : State, s.a = s'.a → s.pc = s'.pc → s.cf = s'.cf → s.zf = s'.zf → s.mem = s'.mem →
    ∃ t t' st, invoke s = .next (t, st) ∧ invoke s' = .next (t', st) ∧
      t.a = t'.a ∧ t.pc = t'.pc ∧ t.cf = t'.cf ∧ t.zf = t'.zf ∧ t.mem = t'.mem ∧ t.mar = t'.mar ∧
      t.irOpcode = t'.irOpcode ∧ t.irOperand = t'.irOperand ∧ t.bus = t'.bus

/-- A store is seen by the very next fetch: after STA to the next instruction's cell, the next cycle runs the byte stored (R41; the
spec derives it, log 10). -/
def Obligations.StoreIsSeenByTheNextFetch : Prop :=
  ∀ s : State, opcodeAt s = 4 → operandAt s = (s.pc.toNat + 1) % 16 →
    ∃ t, step s = .next t ∧ readCell t t.pc = s.a ∧ step t = exec (decodeByte s.a) (fetch t)

/-! ## Invariants -/

/-- Every cycle keeps the invariant: memory in canonical form, and bit 8 of the bus set only after an ADD with carry or a SUB with
borrow (R64). For LDA, STA and OUT the bus part rests on the spec's decision D3 (log 2). -/
def Obligations.StepKeepsInvariant : Prop :=
  ∀ s t : State, Inv s → step s = .next t → Inv t

/-- The reset state meets the invariant. -/
def Obligations.ResetMeetsInvariant : Prop := Inv State.reset

/-- Every host move keeps the invariant (R86, R87, R88, R90, R96; when the host may move is the spec's decision D10, log 8). -/
def Obligations.HostMovesKeepInvariant : Prop :=
  ∀ (m : HostMove) (s : State), Inv s → Inv (applyMove m s)

/-! ## Reset, load and save, runs -/

/-- After reset every register, flag, the bus and every cell is zero; and both resets together lead there from every state (R27). -/
def Obligations.ResetStateIsAllZero : Prop :=
  (State.reset.a.toNat = 0 ∧ State.reset.b.toNat = 0 ∧ State.reset.out.toNat = 0 ∧ State.reset.mar.toNat = 0 ∧
    State.reset.pc.toNat = 0 ∧ State.reset.irOpcode.toNat = 0 ∧ State.reset.irOperand.toNat = 0 ∧ State.reset.cf = false ∧
    State.reset.zf = false ∧ State.reset.bus.toNat = 0 ∧ ∀ x : Nibble, (readCell State.reset x).toNat = 0) ∧
  ∀ s : State, resetMemory (resetRegisters s) = State.reset

/-- Register reset zeroes every register, both flags and the bus and leaves memory alone; memory reset zeroes the 16 cells and leaves
the registers alone (R86, R87). -/
def Obligations.ResetsZeroRegistersOrMemory : Prop :=
  ∀ s : State,
    resetRegisters s = { State.reset with mem := s.mem } ∧
    (∀ x : Nibble, readCell (resetMemory s) x = 0x00#8) ∧ ∃ m : Memory, resetMemory s = { s with mem := m }

/-- `load`: cell i takes byte i for every i below the length and below 16, every other cell and every register is unchanged, whatever
the length (R88). -/
def Obligations.LoadCopiesAtMostSixteenBytes : Prop :=
  ∀ (bytes : List Byte) (s : State),
    (∀ x : Nibble, readCell (load bytes s) x = (bytes[x.toNat]?).getD (readCell s x)) ∧
    ∃ m : Memory, load bytes s = { s with mem := m }

/-- `save`: the cells in address order, as many as the capacity allows, at most 16 (R89). -/
def Obligations.SaveReturnsCellsInOrder : Prop :=
  ∀ s : State, (save none s).length = 16 ∧
    (∀ c : Nat, (save (some c) s).length = min c 16 ∧ ∀ x : Nibble, x.toNat < c → (save (some c) s)[x.toNat]? = some (readCell s x)) ∧
    ∀ x : Nibble, (save none s)[x.toNat]? = some (readCell s x)

/-- What `save` took from a canonical memory, `load` puts into any other state as the same memory (R88, R89). -/
def Obligations.LoadOfSavedMemoryRestoresIt : Prop :=
  ∀ s s' : State, s.mem.wf = true → s'.mem.wf = true → (load (save none s) s').mem = s.mem

/-- A run ends at the first terminal status: its result is terminal and, with the final state's `OUT`, is what the host saw last, and
every status before it was `Continue`; while it runs every status is `Continue`; and no run stops otherwise (R122, the spec's definition
by its decision D5, log 6). -/
def Obligations.RunEndsAtFirstTerminalStatus : Prop :=
  ∀ (k : Nat) (s : State),
    (∀ t st seen, run k s = .ended t st seen → isTerminal st = true ∧ seen.length ≤ k ∧ seen.getLast? = some (observe t st) ∧
      ∀ o ∈ seen.dropLast, o.status = .cont) ∧
    (∀ t seen, run k s = .running t seen → seen.length = k ∧ ∀ o ∈ seen, o.status = .cont) ∧
    ∀ seen, run k s ≠ .stopped seen

/-- A memory that holds NOPs in all 16 cells runs for ever: no run ends, normally or as a failure; after `k` cycles `PC` has gone round
`k` addresses, and `A`, `B`, `OUT`, the flags and memory are as they were (R80, R114). That the bytes 0x01 to 0x0F
run as NOP is the spec's decision D4 (log 4). -/
def Obligations.MemoryOfNopsRunsForEver : Prop :=
  ∀ s : State, (∀ x : Nibble, (readCell s x).toNat ≤ 0x0F) → Safe s ∧ ¬ Halts s ∧
    ∀ k : Nat, ∃ t seen, run k s = .running t seen ∧ t.pc.toNat = (s.pc.toNat + k) % 16 ∧
      t.a = s.a ∧ t.b = s.b ∧ t.out = s.out ∧ t.cf = s.cf ∧ t.zf = s.zf ∧ t.mem = s.mem
end

