-- ==== Sys2Proof/Laws/Bits.lean ====
section
/-! SUPPORT. The bit-field lemmas: what the format, the bus and the 9-bit arithmetic keep (spec/30_encoding.md rule R43,
spec/42_arithmetic.md rules R69 to R72). -/

namespace Sys2Proof

theorem byteOpcode_joinByte : ∀ o x : Nibble, byteOpcode (joinByte o x) = o := by decide

theorem byteOperand_joinByte : ∀ o x : Nibble, byteOperand (joinByte o x) = x := by decide

theorem joinByte_split : ∀ w : Byte, joinByte (byteOpcode w) (byteOperand w) = w := by decide

theorem byteOpcode_toNat : ∀ w : Byte, (byteOpcode w).toNat = w.toNat / 16 := by decide

theorem byteOperand_toNat : ∀ w : Byte, (byteOperand w).toNat = w.toNat % 16 := by decide

theorem opcodeOf_decodeFields (o x : Nibble) : opcodeOf (decodeFields o x) = o := by
  revert o x; decide

theorem operandOf_decodeFields (o x : Nibble) : operandOf (decodeFields o x) = x := by
  revert o x; decide

theorem byteOpcode_encodeByte (i : Instr) : byteOpcode (encodeByte i) = opcodeOf i := byteOpcode_joinByte _ _

theorem byteOperand_encodeByte (i : Instr) : byteOperand (encodeByte i) = operandOf i := byteOperand_joinByte _ _

namespace Machine

theorem lowNibble_zextNibble : ∀ x : Nibble, lowNibble (zextNibble x) = x := by decide

theorem lowByte_zextByte : ∀ w : Byte, lowByte (zextByte w) = w := by decide

theorem highNibble_zextByte : ∀ w : Byte, highNibble (zextByte w) = byteOpcode w := by decide

theorem lowNibble_zextByte : ∀ w : Byte, lowNibble (zextByte w) = byteOperand w := by decide

theorem zextByte_toNat (w : Byte) : (zextByte w).toNat = w.toNat := by
  have := w.isLt
  rw [zextByte, BitVec.toNat_setWidth]
  omega

theorem carryOf_zextByte : ∀ w : Byte, carryOf (zextByte w) = false := by decide

/-- The sum on the bus is exact (R69). -/
theorem busSum_toNat (x y : Byte) : (busSum x y).toNat = x.toNat + y.toNat := by
  have := x.isLt; have := y.isLt
  rw [busSum, BitVec.toNat_add, zextByte_toNat, zextByte_toNat]
  omega

/-- The difference on the bus is the integer difference modulo 512 (R70). -/
theorem busDifference_toNat (x y : Byte) : (busDifference x y).toNat = (512 + x.toNat - y.toNat) % 512 := by
  have := x.isLt; have := y.isLt
  rw [busDifference, BitVec.toNat_sub, zextByte_toNat, zextByte_toNat]
  omega

theorem carryOf_eq (w : BusWord) : carryOf w = decide (256 ≤ w.toNat) := by
  revert w; decide

theorem lowByte_toNat (w : BusWord) : (lowByte w).toNat = w.toNat % 256 := by
  simp [lowByte]

end Machine

end Sys2Proof
end

