-- ==== Sys2Proof/Laws/State.lean ====
section
/-! SUPPORT. One lemma per field per update of State, each true by unfolding, so that no later proof unfolds a record update. -/

namespace Sys2Proof.Machine

/-! ## setA -/

@[simp] theorem State.setA_a (s : State) (v : Byte) : (s.setA v).a = v := rfl
@[simp] theorem State.setA_b (s : State) (v : Byte) : (s.setA v).b = s.b := rfl
@[simp] theorem State.setA_out (s : State) (v : Byte) : (s.setA v).out = s.out := rfl
@[simp] theorem State.setA_mar (s : State) (v : Byte) : (s.setA v).mar = s.mar := rfl
@[simp] theorem State.setA_pc (s : State) (v : Byte) : (s.setA v).pc = s.pc := rfl
@[simp] theorem State.setA_irOpcode (s : State) (v : Byte) : (s.setA v).irOpcode = s.irOpcode := rfl
@[simp] theorem State.setA_irOperand (s : State) (v : Byte) : (s.setA v).irOperand = s.irOperand := rfl
@[simp] theorem State.setA_cf (s : State) (v : Byte) : (s.setA v).cf = s.cf := rfl
@[simp] theorem State.setA_zf (s : State) (v : Byte) : (s.setA v).zf = s.zf := rfl
@[simp] theorem State.setA_bus (s : State) (v : Byte) : (s.setA v).bus = s.bus := rfl
@[simp] theorem State.setA_mem (s : State) (v : Byte) : (s.setA v).mem = s.mem := rfl

/-! ## setB -/

@[simp] theorem State.setB_a (s : State) (v : Byte) : (s.setB v).a = s.a := rfl
@[simp] theorem State.setB_b (s : State) (v : Byte) : (s.setB v).b = v := rfl
@[simp] theorem State.setB_out (s : State) (v : Byte) : (s.setB v).out = s.out := rfl
@[simp] theorem State.setB_mar (s : State) (v : Byte) : (s.setB v).mar = s.mar := rfl
@[simp] theorem State.setB_pc (s : State) (v : Byte) : (s.setB v).pc = s.pc := rfl
@[simp] theorem State.setB_irOpcode (s : State) (v : Byte) : (s.setB v).irOpcode = s.irOpcode := rfl
@[simp] theorem State.setB_irOperand (s : State) (v : Byte) : (s.setB v).irOperand = s.irOperand := rfl
@[simp] theorem State.setB_cf (s : State) (v : Byte) : (s.setB v).cf = s.cf := rfl
@[simp] theorem State.setB_zf (s : State) (v : Byte) : (s.setB v).zf = s.zf := rfl
@[simp] theorem State.setB_bus (s : State) (v : Byte) : (s.setB v).bus = s.bus := rfl
@[simp] theorem State.setB_mem (s : State) (v : Byte) : (s.setB v).mem = s.mem := rfl

/-! ## setOut -/

@[simp] theorem State.setOut_a (s : State) (v : Byte) : (s.setOut v).a = s.a := rfl
@[simp] theorem State.setOut_b (s : State) (v : Byte) : (s.setOut v).b = s.b := rfl
@[simp] theorem State.setOut_out (s : State) (v : Byte) : (s.setOut v).out = v := rfl
@[simp] theorem State.setOut_mar (s : State) (v : Byte) : (s.setOut v).mar = s.mar := rfl
@[simp] theorem State.setOut_pc (s : State) (v : Byte) : (s.setOut v).pc = s.pc := rfl
@[simp] theorem State.setOut_irOpcode (s : State) (v : Byte) : (s.setOut v).irOpcode = s.irOpcode := rfl
@[simp] theorem State.setOut_irOperand (s : State) (v : Byte) : (s.setOut v).irOperand = s.irOperand := rfl
@[simp] theorem State.setOut_cf (s : State) (v : Byte) : (s.setOut v).cf = s.cf := rfl
@[simp] theorem State.setOut_zf (s : State) (v : Byte) : (s.setOut v).zf = s.zf := rfl
@[simp] theorem State.setOut_bus (s : State) (v : Byte) : (s.setOut v).bus = s.bus := rfl
@[simp] theorem State.setOut_mem (s : State) (v : Byte) : (s.setOut v).mem = s.mem := rfl

/-! ## setMar -/

@[simp] theorem State.setMar_a (s : State) (x : Nibble) : (s.setMar x).a = s.a := rfl
@[simp] theorem State.setMar_b (s : State) (x : Nibble) : (s.setMar x).b = s.b := rfl
@[simp] theorem State.setMar_out (s : State) (x : Nibble) : (s.setMar x).out = s.out := rfl
@[simp] theorem State.setMar_mar (s : State) (x : Nibble) : (s.setMar x).mar = x := rfl
@[simp] theorem State.setMar_pc (s : State) (x : Nibble) : (s.setMar x).pc = s.pc := rfl
@[simp] theorem State.setMar_irOpcode (s : State) (x : Nibble) : (s.setMar x).irOpcode = s.irOpcode := rfl
@[simp] theorem State.setMar_irOperand (s : State) (x : Nibble) : (s.setMar x).irOperand = s.irOperand := rfl
@[simp] theorem State.setMar_cf (s : State) (x : Nibble) : (s.setMar x).cf = s.cf := rfl
@[simp] theorem State.setMar_zf (s : State) (x : Nibble) : (s.setMar x).zf = s.zf := rfl
@[simp] theorem State.setMar_bus (s : State) (x : Nibble) : (s.setMar x).bus = s.bus := rfl
@[simp] theorem State.setMar_mem (s : State) (x : Nibble) : (s.setMar x).mem = s.mem := rfl

/-! ## setPc -/

@[simp] theorem State.setPc_a (s : State) (x : Nibble) : (s.setPc x).a = s.a := rfl
@[simp] theorem State.setPc_b (s : State) (x : Nibble) : (s.setPc x).b = s.b := rfl
@[simp] theorem State.setPc_out (s : State) (x : Nibble) : (s.setPc x).out = s.out := rfl
@[simp] theorem State.setPc_mar (s : State) (x : Nibble) : (s.setPc x).mar = s.mar := rfl
@[simp] theorem State.setPc_pc (s : State) (x : Nibble) : (s.setPc x).pc = x := rfl
@[simp] theorem State.setPc_irOpcode (s : State) (x : Nibble) : (s.setPc x).irOpcode = s.irOpcode := rfl
@[simp] theorem State.setPc_irOperand (s : State) (x : Nibble) : (s.setPc x).irOperand = s.irOperand := rfl
@[simp] theorem State.setPc_cf (s : State) (x : Nibble) : (s.setPc x).cf = s.cf := rfl
@[simp] theorem State.setPc_zf (s : State) (x : Nibble) : (s.setPc x).zf = s.zf := rfl
@[simp] theorem State.setPc_bus (s : State) (x : Nibble) : (s.setPc x).bus = s.bus := rfl
@[simp] theorem State.setPc_mem (s : State) (x : Nibble) : (s.setPc x).mem = s.mem := rfl

/-! ## setIr -/

@[simp] theorem State.setIr_a (s : State) (o x : Nibble) : (s.setIr o x).a = s.a := rfl
@[simp] theorem State.setIr_b (s : State) (o x : Nibble) : (s.setIr o x).b = s.b := rfl
@[simp] theorem State.setIr_out (s : State) (o x : Nibble) : (s.setIr o x).out = s.out := rfl
@[simp] theorem State.setIr_mar (s : State) (o x : Nibble) : (s.setIr o x).mar = s.mar := rfl
@[simp] theorem State.setIr_pc (s : State) (o x : Nibble) : (s.setIr o x).pc = s.pc := rfl
@[simp] theorem State.setIr_irOpcode (s : State) (o x : Nibble) : (s.setIr o x).irOpcode = o := rfl
@[simp] theorem State.setIr_irOperand (s : State) (o x : Nibble) : (s.setIr o x).irOperand = x := rfl
@[simp] theorem State.setIr_cf (s : State) (o x : Nibble) : (s.setIr o x).cf = s.cf := rfl
@[simp] theorem State.setIr_zf (s : State) (o x : Nibble) : (s.setIr o x).zf = s.zf := rfl
@[simp] theorem State.setIr_bus (s : State) (o x : Nibble) : (s.setIr o x).bus = s.bus := rfl
@[simp] theorem State.setIr_mem (s : State) (o x : Nibble) : (s.setIr o x).mem = s.mem := rfl

/-! ## setCf -/

@[simp] theorem State.setCf_a (s : State) (f : Bool) : (s.setCf f).a = s.a := rfl
@[simp] theorem State.setCf_b (s : State) (f : Bool) : (s.setCf f).b = s.b := rfl
@[simp] theorem State.setCf_out (s : State) (f : Bool) : (s.setCf f).out = s.out := rfl
@[simp] theorem State.setCf_mar (s : State) (f : Bool) : (s.setCf f).mar = s.mar := rfl
@[simp] theorem State.setCf_pc (s : State) (f : Bool) : (s.setCf f).pc = s.pc := rfl
@[simp] theorem State.setCf_irOpcode (s : State) (f : Bool) : (s.setCf f).irOpcode = s.irOpcode := rfl
@[simp] theorem State.setCf_irOperand (s : State) (f : Bool) : (s.setCf f).irOperand = s.irOperand := rfl
@[simp] theorem State.setCf_cf (s : State) (f : Bool) : (s.setCf f).cf = f := rfl
@[simp] theorem State.setCf_zf (s : State) (f : Bool) : (s.setCf f).zf = s.zf := rfl
@[simp] theorem State.setCf_bus (s : State) (f : Bool) : (s.setCf f).bus = s.bus := rfl
@[simp] theorem State.setCf_mem (s : State) (f : Bool) : (s.setCf f).mem = s.mem := rfl

/-! ## setZf -/

@[simp] theorem State.setZf_a (s : State) (f : Bool) : (s.setZf f).a = s.a := rfl
@[simp] theorem State.setZf_b (s : State) (f : Bool) : (s.setZf f).b = s.b := rfl
@[simp] theorem State.setZf_out (s : State) (f : Bool) : (s.setZf f).out = s.out := rfl
@[simp] theorem State.setZf_mar (s : State) (f : Bool) : (s.setZf f).mar = s.mar := rfl
@[simp] theorem State.setZf_pc (s : State) (f : Bool) : (s.setZf f).pc = s.pc := rfl
@[simp] theorem State.setZf_irOpcode (s : State) (f : Bool) : (s.setZf f).irOpcode = s.irOpcode := rfl
@[simp] theorem State.setZf_irOperand (s : State) (f : Bool) : (s.setZf f).irOperand = s.irOperand := rfl
@[simp] theorem State.setZf_cf (s : State) (f : Bool) : (s.setZf f).cf = s.cf := rfl
@[simp] theorem State.setZf_zf (s : State) (f : Bool) : (s.setZf f).zf = f := rfl
@[simp] theorem State.setZf_bus (s : State) (f : Bool) : (s.setZf f).bus = s.bus := rfl
@[simp] theorem State.setZf_mem (s : State) (f : Bool) : (s.setZf f).mem = s.mem := rfl

/-! ## setBus -/

@[simp] theorem State.setBus_a (s : State) (w : BusWord) : (s.setBus w).a = s.a := rfl
@[simp] theorem State.setBus_b (s : State) (w : BusWord) : (s.setBus w).b = s.b := rfl
@[simp] theorem State.setBus_out (s : State) (w : BusWord) : (s.setBus w).out = s.out := rfl
@[simp] theorem State.setBus_mar (s : State) (w : BusWord) : (s.setBus w).mar = s.mar := rfl
@[simp] theorem State.setBus_pc (s : State) (w : BusWord) : (s.setBus w).pc = s.pc := rfl
@[simp] theorem State.setBus_irOpcode (s : State) (w : BusWord) : (s.setBus w).irOpcode = s.irOpcode := rfl
@[simp] theorem State.setBus_irOperand (s : State) (w : BusWord) : (s.setBus w).irOperand = s.irOperand := rfl
@[simp] theorem State.setBus_cf (s : State) (w : BusWord) : (s.setBus w).cf = s.cf := rfl
@[simp] theorem State.setBus_zf (s : State) (w : BusWord) : (s.setBus w).zf = s.zf := rfl
@[simp] theorem State.setBus_bus (s : State) (w : BusWord) : (s.setBus w).bus = w := rfl
@[simp] theorem State.setBus_mem (s : State) (w : BusWord) : (s.setBus w).mem = s.mem := rfl

/-! ## setMem -/

@[simp] theorem State.setMem_a (s : State) (m : Memory) : (s.setMem m).a = s.a := rfl
@[simp] theorem State.setMem_b (s : State) (m : Memory) : (s.setMem m).b = s.b := rfl
@[simp] theorem State.setMem_out (s : State) (m : Memory) : (s.setMem m).out = s.out := rfl
@[simp] theorem State.setMem_mar (s : State) (m : Memory) : (s.setMem m).mar = s.mar := rfl
@[simp] theorem State.setMem_pc (s : State) (m : Memory) : (s.setMem m).pc = s.pc := rfl
@[simp] theorem State.setMem_irOpcode (s : State) (m : Memory) : (s.setMem m).irOpcode = s.irOpcode := rfl
@[simp] theorem State.setMem_irOperand (s : State) (m : Memory) : (s.setMem m).irOperand = s.irOperand := rfl
@[simp] theorem State.setMem_cf (s : State) (m : Memory) : (s.setMem m).cf = s.cf := rfl
@[simp] theorem State.setMem_zf (s : State) (m : Memory) : (s.setMem m).zf = s.zf := rfl
@[simp] theorem State.setMem_bus (s : State) (m : Memory) : (s.setMem m).bus = s.bus := rfl
@[simp] theorem State.setMem_mem (s : State) (m : Memory) : (s.setMem m).mem = m := rfl

end Sys2Proof.Machine
end

