-- ==== Sys2Proof/Laws/Memory.lean ====
section
/-! SUPPORT. The laws of the memory operations: a read after a write, and that every operation keeps the canonical form. They hold of
every list, canonical or not, except where `wf` is a premise. -/

namespace Sys2Proof.Machine

/-! ## Reading what was written -/

theorem cellAt_dropCell_self (x : Nat) (m : Memory) : cellAt (dropCell x m) x = Config.blankByte := by
  induction m with
  | nil => rfl
  | cons c m ih =>
    by_cases h : c.1 = x
    · simpa [dropCell, h] using ih
    · simpa [dropCell, cellAt, h] using ih

theorem cellAt_dropCell_ne {x y : Nat} (h : y ≠ x) (m : Memory) : cellAt (dropCell x m) y = cellAt m y := by
  induction m with
  | nil => rfl
  | cons c m ih =>
    by_cases hx : c.1 = x
    · have hy : c.1 ≠ y := fun e => h (e ▸ hx)
      simpa [dropCell, cellAt, hx, hy, Ne.symm h] using ih
    · by_cases hy : c.1 = y
      · simp [dropCell, cellAt, hy, h]
      · simpa [dropCell, cellAt, hx, hy] using ih

theorem cellAt_insertCell_self (x : Nat) (v : Byte) (m : Memory) (h : ∀ c ∈ m, c.1 ≠ x) :
    cellAt (insertCell x v m) x = v := by
  induction m with
  | nil => simp [insertCell, cellAt]
  | cons c m ih =>
    by_cases hx : x < c.1
    · simp [insertCell, cellAt, hx]
    · have hc : c.1 ≠ x := h c (by simp)
      simpa [insertCell, cellAt, hx, hc] using ih fun d hd => h d (by simp [hd])

theorem cellAt_insertCell_ne {x y : Nat} (h : y ≠ x) (v : Byte) (m : Memory) : cellAt (insertCell x v m) y = cellAt m y := by
  induction m with
  | nil => simp [insertCell, cellAt, Ne.symm h]
  | cons c m ih =>
    by_cases hx : x < c.1
    · simp [insertCell, cellAt, hx, Ne.symm h]
    · simp [insertCell, cellAt, hx, ih]

theorem ne_of_mem_dropCell {x : Nat} {m : Memory} {c : Host.Cell} (h : c ∈ dropCell x m) : c.1 ≠ x := by
  simpa using (List.mem_filter.mp h).2

/-- A byte stored is the byte read (R35). -/
theorem cellAt_putCell_self (m : Memory) (x : Nat) (v : Byte) : cellAt (putCell m x v) x = v := by
  unfold putCell
  split
  · rename_i hv; rw [cellAt_dropCell_self, hv]
  · exact cellAt_insertCell_self x v _ fun _ hc => ne_of_mem_dropCell hc

/-- A store changes no other cell (R35, R37). -/
theorem cellAt_putCell_ne {x y : Nat} (h : y ≠ x) (m : Memory) (v : Byte) : cellAt (putCell m x v) y = cellAt m y := by
  unfold putCell
  split
  · exact cellAt_dropCell_ne h m
  · rw [cellAt_insertCell_ne h, cellAt_dropCell_ne h]

/-! ## The canonical form -/

theorem Memory.wfFrom_cons {lo x : Nat} {v : Byte} {m : Memory} :
    Memory.wfFrom lo ((x, v) :: m) = true ↔ lo ≤ x ∧ x < Config.memCells ∧ v ≠ Config.blankByte ∧ Memory.wfFrom (x + 1) m = true := by
  simp [Memory.wfFrom, and_assoc]

theorem Memory.wfFrom_mono {lo lo' : Nat} (h : lo' ≤ lo) {m : Memory} (hm : Memory.wfFrom lo m = true) :
    Memory.wfFrom lo' m = true := by
  cases m with
  | nil => rfl
  | cons c m =>
    obtain ⟨h1, h2⟩ := wfFrom_cons.mp hm
    exact wfFrom_cons.mpr ⟨h.trans h1, h2⟩

theorem wfFrom_dropCell (x : Nat) {m : Memory} : ∀ {lo : Nat}, Memory.wfFrom lo m = true → Memory.wfFrom lo (dropCell x m) = true := by
  induction m with
  | nil => intro lo _; rfl
  | cons c m ih =>
    intro lo hm
    obtain ⟨h1, h2, h3, h4⟩ := Memory.wfFrom_cons.mp hm
    by_cases hx : c.1 = x
    · have : dropCell x (c :: m) = dropCell x m := by simp [dropCell, hx]
      rw [this]
      exact Memory.wfFrom_mono (by omega) (ih h4)
    · have : dropCell x (c :: m) = c :: dropCell x m := by simp [dropCell, hx]
      rw [this]
      exact Memory.wfFrom_cons.mpr ⟨h1, h2, h3, ih h4⟩

theorem wfFrom_insertCell {x : Nat} (hx : x < Config.memCells) {v : Byte} (hv : v ≠ Config.blankByte) {m : Memory} :
    ∀ {lo : Nat}, lo ≤ x → (∀ c ∈ m, c.1 ≠ x) → Memory.wfFrom lo m = true → Memory.wfFrom lo (insertCell x v m) = true := by
  induction m with
  | nil => intro lo hlo _ _; exact Memory.wfFrom_cons.mpr ⟨hlo, hx, hv, rfl⟩
  | cons c m ih =>
    intro lo hlo hne hm
    obtain ⟨h1, h2, h3, h4⟩ := Memory.wfFrom_cons.mp hm
    by_cases hlt : x < c.1
    · rw [insertCell, if_pos hlt]
      exact Memory.wfFrom_cons.mpr ⟨hlo, hx, hv, Memory.wfFrom_cons.mpr ⟨hlt, h2, h3, h4⟩⟩
    · have hc : c.1 ≠ x := hne c (by simp)
      rw [insertCell, if_neg hlt]
      exact Memory.wfFrom_cons.mpr ⟨h1, h2, h3, ih (by omega) (fun d hd => hne d (by simp [hd])) h4⟩

/-- A store to one of the 16 cells keeps the canonical form. -/
theorem putCell_wf {m : Memory} (hm : m.wf = true) {x : Nat} (hx : x < Config.memCells) (v : Byte) : (putCell m x v).wf = true := by
  unfold putCell
  split
  · exact wfFrom_dropCell x hm
  · rename_i hv
    exact wfFrom_insertCell hx hv (Nat.zero_le x) (fun _ hc => ne_of_mem_dropCell hc) (wfFrom_dropCell x hm)

theorem reset_mem_wf : State.reset.mem.wf = true := rfl

theorem cellAt_below {m : Memory} {lo : Nat} (hm : Memory.wfFrom lo m = true) {x : Nat} (hx : x < lo) :
    cellAt m x = Config.blankByte := by
  induction m generalizing lo with
  | nil => rfl
  | cons c m ih =>
    obtain ⟨h1, -, -, h4⟩ := Memory.wfFrom_cons.mp hm
    rw [cellAt, if_neg (by omega)]
    exact ih h4 (by omega)

/-- Canonical memories that read alike are the same list. -/
theorem wfFrom_ext {m m' : Memory} : ∀ {lo lo' : Nat}, Memory.wfFrom lo m = true → Memory.wfFrom lo' m' = true →
    (∀ x, cellAt m x = cellAt m' x) → m = m' := by
  induction m generalizing m' with
  | nil =>
    intro lo lo' _ h' he
    cases m' with
    | nil => rfl
    | cons c m' =>
      obtain ⟨-, -, h3, -⟩ := Memory.wfFrom_cons.mp h'
      exact absurd (by simpa [cellAt] using (he c.1).symm) h3
  | cons c m ih =>
    intro lo lo' h h' he
    obtain ⟨-, -, h3, h4⟩ := Memory.wfFrom_cons.mp h
    cases m' with
    | nil => exact absurd (by simpa [cellAt] using he c.1) h3
    | cons c' m' =>
      obtain ⟨-, -, h3', h4'⟩ := Memory.wfFrom_cons.mp h'
      have hx : c.1 = c'.1 := by
        rcases Nat.lt_trichotomy c.1 c'.1 with hl | hl | hl
        · have := he c.1
          rw [cellAt, if_pos rfl, cellAt, if_neg (by omega), cellAt_below h4' (by omega)] at this
          exact absurd this h3
        · exact hl
        · have := he c'.1
          rw [cellAt, if_neg (by omega), cellAt_below h4 (by omega), cellAt, if_pos rfl] at this
          exact absurd this.symm h3'
      have hv : c.2 = c'.2 := by simpa [cellAt, hx] using he c.1
      have hc : c = c' := Prod.ext hx hv
      subst hc
      refine congrArg (c :: ·) (ih h4 h4' fun x => ?_)
      have := he x
      by_cases hxc : c.1 = x
      · rw [cellAt_below h4 (by omega), cellAt_below h4' (by omega)]
      · simpa [cellAt, hxc] using this

/-! ## The same, of a state and a 4-bit address -/

theorem readCell_writeCell_self (s : State) (x : Nibble) (v : Byte) : readCell (writeCell s x v) x = v :=
  cellAt_putCell_self s.mem x.toNat v

theorem readCell_writeCell_ne {x y : Nibble} (h : y ≠ x) (s : State) (v : Byte) : readCell (writeCell s x v) y = readCell s y :=
  cellAt_putCell_ne (fun e => h (BitVec.eq_of_toNat_eq e)) s.mem v

theorem writeCell_wf {s : State} (hs : s.mem.wf = true) (x : Nibble) (v : Byte) : (writeCell s x v).mem.wf = true :=
  putCell_wf hs x.isLt v

/-- A read depends on the memory alone. -/
theorem readCell_congr {s t : State} (h : s.mem = t.mem) (x : Nibble) : readCell s x = readCell t x := by
  unfold readCell; rw [h]

end Sys2Proof.Machine
end

