-- ==== Sys2Proof/Laws/Ops.lean ====
section
/-! SUPPORT. One lemma per shared operation that says everything it does, in place of unfolding it. -/

namespace Sys2Proof.Machine

/-- All that Fetch does (R54, R55). -/
theorem fetch_eq (s : State) :
    fetch s = { s with
      bus := zextByte (readCell s s.pc), mar := s.pc, irOpcode := byteOpcode (readCell s s.pc),
      irOperand := byteOperand (readCell s s.pc), pc := s.pc + 1#4 } := by
  unfold fetch busToMar cellToBus State.setBus State.setMar State.setIr State.setPc readCell
  simp only [lowNibble_zextNibble, highNibble_zextByte, lowNibble_zextByte]

theorem endCycle_eq (s : State) : endCycle s = .next s := rfl

/-- The status of a cycle is that of the instruction its byte decodes to (R57, R59). -/
theorem cycleStatus_eq (s : State) : cycleStatus s = returnedStatus (decodeByte (readCell s s.pc)) := by
  unfold cycleStatus decodeByte
  simp only [fetch_eq]

theorem recombine_eq (i : Instr) (s : State) : recombine i s = { s with bus := zextByte (encodeByte i) } := rfl

/-- All that the address operand form does (R31, R44). -/
theorem selectAddress_eq (i : Instr) (s : State) :
    selectAddress i s = { s with bus := zextByte (encodeByte i), mar := operandOf i } := by
  unfold selectAddress busToMar recombine State.setBus State.setMar
  simp only [lowNibble_zextByte, byteOperand_encodeByte]

/-- All that a taken jump does but for its flag (R44, R78). -/
theorem jumpTo_eq (i : Instr) (s : State) :
    jumpTo i s = { s with bus := zextByte (encodeByte i), pc := operandOf i } := by
  unfold jumpTo recombine State.setBus State.setPc
  simp only [lowNibble_zextByte, byteOperand_encodeByte]

theorem cellToB_eq (s : State) : cellToB s = { s with b := readCell s s.mar } := rfl

theorem cellToBus_eq (s : State) : cellToBus s = { s with bus := zextByte (readCell s s.mar) } := rfl

theorem busToA_eq (s : State) : busToA s = { s with a := lowByte s.bus } := rfl

theorem aToBus_eq (s : State) : aToBus s = { s with bus := zextByte s.a } := rfl

theorem busToOut_eq (s : State) : busToOut s = { s with out := lowByte s.bus } := rfl

theorem busToCell_eq (s : State) : busToCell s = { s with mem := putCell s.mem s.mar.toNat (lowByte s.bus) } := rfl

/-- All that the common end of ADD and SUB does (R69, R70). -/
theorem keepResult_eq (w : BusWord) (s : State) :
    keepResult w s = { s with bus := w, a := lowByte w, cf := carryOf w, zf := zeroOf (lowByte w) } := rfl

end Sys2Proof.Machine
end

