-- ==== Sys2Proof/WellFormed.lean ====
section
/-! DEFINITION. Two checks on an instruction as syntax.
`wellFormed`: every operand fits its four bits (spec/00_scope.md rule R5, spec/10_state.md rule R23). The type of an operand makes
this true of every instruction, as rule R23 asks, so the check refuses nothing; no statement assumes it.
`canonical`: the instruction is one that the spec's assembler syntax writes (spec/30_encoding.md rules R49, R51): an implemented
operation, with low nibble 0 where the operation takes no operand. Decoding does not ask for it: the ignored nibbles are ignored. -/

namespace Sys2Proof

/-- Every operand is in 0 to 15 (R5, R23): true of every term of the type. -/
def wellFormed : Instr → Bool
  | .nop x | .reserved9 x | .reserved10 x | .reserved11 x | .reserved12 x | .reserved13 x | .out x | .hlt x => decide (x.toNat < 16)
  | .lda a | .add a | .sub a | .sta a | .jmp a | .jc a | .jz a => decide (a.toNat < 16)
  | .ldi v => decide (v.toNat < 16)

/-- The canonical encodings (R49, R51): NOP = 0x00, OUT = 0xE0, HLT = 0xF0; the reserved opcodes have no mnemonic. -/
def canonical : Instr → Bool
  | .nop x | .out x | .hlt x => x == 0x0#4
  | .lda _ | .add _ | .sub _ | .sta _ | .ldi _ | .jmp _ | .jc _ | .jz _ => true
  | .reserved9 _ | .reserved10 _ | .reserved11 _ | .reserved12 _ | .reserved13 _ => false

end Sys2Proof
end

