-- ==== Sys2Proof/Laws/PerInstr.lean ====
section
/-! SUPPORT. The family `Encoding`: one lemma per constructor of Instr, about the instruction as syntax: its operand fits four bits, its
byte holds its opcode in the high and its operand in the low nibble (R43), and dispatch on the two gives it back (R46). -/

namespace Sys2Proof.Laws.Encoding

/-- What the family says of an instruction. -/
def Statement (i : Instr) : Prop :=
  wellFormed i = true ∧ byteOpcode (encodeByte i) = opcodeOf i ∧ byteOperand (encodeByte i) = operandOf i ∧
    decodeFields (opcodeOf i) (operandOf i) = i

/-- The two nibbles of any instruction's byte; what is left is the operand's width and the opcode map's row. -/
theorem of_row {i : Instr} (hw : wellFormed i = true) (hd : decodeFields (opcodeOf i) (operandOf i) = i) : Statement i :=
  ⟨hw, byteOpcode_encodeByte i, byteOperand_encodeByte i, hd⟩

/-- Each row of the opcode map, read back (R46). -/
theorem row (i : Instr) : decodeFields (opcodeOf i) (operandOf i) = i := by
  cases i <;> simp [decodeFields, opcodeOf, operandOf]

theorem nop (x : Nibble) : Statement (.nop x) := of_row (decide_eq_true x.isLt) (row _)
theorem lda (a : Nibble) : Statement (.lda a) := of_row (decide_eq_true a.isLt) (row _)
theorem add (a : Nibble) : Statement (.add a) := of_row (decide_eq_true a.isLt) (row _)
theorem sub (a : Nibble) : Statement (.sub a) := of_row (decide_eq_true a.isLt) (row _)
theorem sta (a : Nibble) : Statement (.sta a) := of_row (decide_eq_true a.isLt) (row _)
theorem ldi (v : Nibble) : Statement (.ldi v) := of_row (decide_eq_true v.isLt) (row _)
theorem jmp (a : Nibble) : Statement (.jmp a) := of_row (decide_eq_true a.isLt) (row _)
theorem jc (a : Nibble) : Statement (.jc a) := of_row (decide_eq_true a.isLt) (row _)
theorem jz (a : Nibble) : Statement (.jz a) := of_row (decide_eq_true a.isLt) (row _)
theorem reserved9 (x : Nibble) : Statement (.reserved9 x) := of_row (decide_eq_true x.isLt) (row _)
theorem reserved10 (x : Nibble) : Statement (.reserved10 x) := of_row (decide_eq_true x.isLt) (row _)
theorem reserved11 (x : Nibble) : Statement (.reserved11 x) := of_row (decide_eq_true x.isLt) (row _)
theorem reserved12 (x : Nibble) : Statement (.reserved12 x) := of_row (decide_eq_true x.isLt) (row _)
theorem reserved13 (x : Nibble) : Statement (.reserved13 x) := of_row (decide_eq_true x.isLt) (row _)
theorem out (x : Nibble) : Statement (.out x) := of_row (decide_eq_true x.isLt) (row _)
theorem hlt (x : Nibble) : Statement (.hlt x) := of_row (decide_eq_true x.isLt) (row _)

end Sys2Proof.Laws.Encoding
end

