-- ==== Sys2Proof/Machine/Pacing.lean ====
section
/-! DEFINITION. What the spec records of the Cycle Gate's waits (spec/70_reset_and_hazards.md rules R119 to R121), as counts that no
step reads: "no effect on computed results". Where the source gives no count, the count is an open parameter (log 5). -/

namespace Sys2Proof.Machine

/-- Fetch has two waits (R54, R120). -/
def fetchWaits : Nat := 2

/-- The waits of an Execute stage: three for NOP, open for the rest (R80, R120). DESIGN CHOICE (log 5): the count is one number per
opcode, as `waits(op)` of rule R6 is written, so a JC or JZ that is not taken counts the same open number as one that is taken, which
the spec does not say (R120, N19). No step reads it. -/
def executeWaits (opcode : Nibble) : Nat := if opcode = 0x0#4 then 3 else Config.waitsNotGiven opcode

/-- How long a cycle is paced, each wait lasting the duration the host set (R96, R120). -/
def cyclePacing (duration : Nat) (opcode : Nibble) : Nat := (fetchWaits + executeWaits opcode) * duration

/-- The pacing before the host sets any (R6, R120). -/
def defaultCyclePacing (opcode : Nibble) : Nat := cyclePacing Config.defaultPacing opcode

end Sys2Proof.Machine
end

