-- ==== Sys2Proof/Tests/Slice0.lean ====
section
/-! SUPPORT. Tests of single instructions: their expected results are the vectors of spec/95_test_vectors.md (ids V-…, examples E…) and
the encodings of spec/30_encoding.md rule R46, none computed by the model; and a witness for every statement that has hypotheses. -/

namespace Sys2Proof.Tests

open Sys2Proof.Machine Sys2Proof.Safety

/-! ## Helpers -/

/-- The reset state with `PC` at `pc` and the byte `w` there. -/
def poised (pc : Nibble) (w : Byte) : State := writeCell (State.reset.setPc pc) pc w

/-- A view of the state that one step leaves. -/
def after {α : Type} (s : State) (view : State → α) : Option α :=
  match step s with
  | .next t => some (view t)
  | .fault _ => none
  | .refused _ => none

/-- A view of the state that one invocation leaves and of the status it returns. -/
def afterWith {α : Type} (s : State) (view : State → Status → α) : Option α :=
  match invoke s with
  | .next (t, st) => some (view t st)
  | .fault _ => none
  | .refused _ => none

/-- The status that one invocation returns. -/
def statusAfter (s : State) : Option Status := afterWith s fun _ st => st

/-! ## WellFormed: what `canonical` refuses, one term for each of its checks; `wellFormed` refuses no term of the type (R23) -/

theorem test_canonical_refuses_nop_nibble : canonical (.nop 0x5#4) = false := by decide
theorem test_canonical_refuses_out_nibble : canonical (.out 0x7#4) = false := by decide
theorem test_canonical_refuses_hlt_nibble : canonical (.hlt 0xE#4) = false := by decide
theorem test_canonical_refuses_reserved :
    [canonical (.reserved9 0#4), canonical (.reserved10 0#4), canonical (.reserved11 0#4), canonical (.reserved12 0#4),
      canonical (.reserved13 0#4)] = [false, false, false, false, false] := by decide
theorem test_canonical_accepts : canonical (.nop 0#4) ∧ canonical (.lda 0xF#4) ∧ canonical (.hlt 0#4) := by decide
theorem test_wellFormed_at_the_top : wellFormed (.lda 0xF#4) ∧ wellFormed (.nop 0xF#4) ∧ wellFormed (.ldi 0xF#4) := by decide

/-! ## Decoding: one byte for each row of R46, written bit by bit -/

theorem test_decode_nop : decodeByte 0b00001100#8 = .nop 0xC#4 := by decide
theorem test_decode_lda : decodeByte 0b00010101#8 = .lda 0x5#4 := by decide
theorem test_decode_add : decodeByte 0b00101110#8 = .add 0xE#4 := by decide
theorem test_decode_sub : decodeByte 0b00111101#8 = .sub 0xD#4 := by decide
theorem test_decode_sta : decodeByte 0b01000010#8 = .sta 0x2#4 := by decide
theorem test_decode_ldi : decodeByte 0b01010011#8 = .ldi 0x3#4 := by decide
theorem test_decode_jmp : decodeByte 0b01101001#8 = .jmp 0x9#4 := by decide
theorem test_decode_jc : decodeByte 0b01110100#8 = .jc 0x4#4 := by decide
theorem test_decode_jz : decodeByte 0b10001111#8 = .jz 0xF#4 := by decide
theorem test_decode_reserved9 : decodeByte 0b10010000#8 = .reserved9 0x0#4 := by decide
theorem test_decode_reserved10 : decodeByte 0b10100111#8 = .reserved10 0x7#4 := by decide
theorem test_decode_reserved11 : decodeByte 0b10110000#8 = .reserved11 0x0#4 := by decide
theorem test_decode_reserved12 : decodeByte 0b11000011#8 = .reserved12 0x3#4 := by decide
theorem test_decode_reserved13 : decodeByte 0b11011111#8 = .reserved13 0xF#4 := by decide
theorem test_decode_out : decodeByte 0b11100111#8 = .out 0x7#4 := by decide
theorem test_decode_hlt : decodeByte 0b11111110#8 = .hlt 0xE#4 := by decide
theorem test_decode_nothing : decode [] = .error .noByte := rfl
theorem test_encode_ldi : encode (.ldi 0x3#4) = [0x53#8] := by decide
theorem test_decodeTableWord : decodeTableWord 8 0xA0 = some (.reserved10 0#4) := by decide

/-! ## Instructions: vectors of section 2 of spec/95_test_vectors.md -/

/-- V-F-2. -/
theorem test_nop : afterWith (poised 9 0x0C) (fun t st => (t.mar, t.irOpcode, t.irOperand, t.bus, t.pc, st)) =
    some (0x9#4, 0x0#4, 0xC#4, 0x00C#9, 0xA#4, .cont) := by decide
/-- V-F-3: `PC` wraps. -/
theorem test_nop_wraps : after (poised 0xF 0x00) (fun t => (t.pc, t.mar)) = some (0x0#4, 0xF#4) := by decide
/-- V-L-1. -/
theorem test_lda : after (writeCell (poised 0 0x1F) 0xF 0xFE) (fun t => (t.a, t.mar, t.pc, t.bus)) =
    some (0xFE#8, 0xF#4, 0x1#4, 0x0FE#9) := by decide
/-- V-L-3: it loads its own byte. -/
theorem test_lda_own_byte : after (poised 5 0x15) (fun t => (t.a, t.mar, t.pc, t.zf)) = some (0x15#8, 0x5#4, 0x6#4, false) := by decide
/-- V-A-3: carry and zero together. -/
theorem test_add_wraps : after (writeCell ((poised 1 0x2E).setA 0xFF) 0xE 0x01) (fun t => (t.b, t.bus, t.a, t.cf, t.zf)) =
    some (0x01#8, 0x100#9, 0x00#8, true, true) := by decide
/-- V-A-12: it adds its own byte. -/
theorem test_add_own_byte : after ((poised 3 0x23).setA 0x01) (fun t => (t.a, t.b, t.mar)) = some (0x24#8, 0x23#8, 0x3#4) := by decide
/-- V-B-3: a borrow. -/
theorem test_sub_borrows : after (writeCell ((poised 0 0x3D).setA 0x03) 0xD 0x05) (fun t => (t.b, t.bus, t.a, t.cf, t.zf)) =
    some (0x05#8, 0x1FE#9, 0xFE#8, true, false) := by decide
/-- V-B-5: the most negative difference. -/
theorem test_sub_lowest : after (writeCell (poised 0 0x3D) 0xD 0xFF) (fun t => (t.bus, t.a, t.cf, t.zf)) =
    some (0x101#9, 0x01#8, true, false) := by decide
/-- V-S-1. -/
theorem test_sta : after (writeCell ((poised 2 0x4F).setA 0xFF) 0xF 0xFE) (fun t => (readCell t 0xF, t.a, t.mar, t.pc, t.bus)) =
    some (0xFF#8, 0xFF#8, 0xF#4, 0x3#4, 0x0FF#9) := by decide
/-- V-S-3: storing 0 over its own byte leaves no entry in the memory. -/
theorem test_sta_own_byte : afterWith (poised 4 0x44) (fun t st => (readCell t 4, t.mem, t.pc, st)) =
    some (0x00#8, [], 0x5#4, .cont) := by decide
/-- V-I-1, E10: the instruction byte, not the operand. -/
theorem test_ldi : after (poised 0 0x53) (fun t => (t.a, t.mar, t.pc, t.bus)) = some (0x53#8, 0x0#4, 0x1#4, 0x053#9) := by decide
/-- V-I-4: no flag changes. -/
theorem test_ldi_flags : after (((poised 7 0x51).setCf true).setZf true) (fun t => (t.a, t.cf, t.zf, t.mar)) =
    some (0x51#8, true, true, 0x7#4) := by decide
/-- V-J-1. -/
theorem test_jmp : after (poised 5 0x60) (fun t => (t.pc, t.mar, t.irOpcode, t.bus)) = some (0x0#4, 0x5#4, 0x6#4, 0x060#9) := by decide
/-- V-J-3. -/
theorem test_jmp_self_at_top : after (poised 0xF 0x6F) (fun t => t.pc) = some 0xF#4 := by decide
/-- V-C-1: taken. -/
theorem test_jc_taken : after (((poised 4 0x79).setCf true).setZf true) (fun t => (t.pc, t.cf, t.zf, t.bus)) =
    some (0x9#4, false, true, 0x079#9) := by decide
/-- V-C-4: not taken, and `PC` wraps. -/
theorem test_jc_not_taken : after (poised 0xF 0x73) (fun t => (t.pc, t.cf)) = some (0x0#4, false) := by decide
/-- V-Z-1: taken. -/
theorem test_jz_taken : after (((poised 4 0x86).setCf true).setZf true) (fun t => (t.pc, t.zf, t.cf)) =
    some (0x6#4, false, true) := by decide
/-- V-Z-4: `A = 0` alone does not make the jump. -/
theorem test_jz_not_taken : after (poised 0 0x88) (fun t => (t.pc, t.zf)) = some (0x1#4, false) := by decide
/-- V-RES-1. -/
theorem test_reserved10 : afterWith ((((poised 2 0xA7).setA 0x12).setBus 0x1AB).setCf true)
      (fun t st => (st, t.pc, t.mar, t.bus, t.a, t.cf)) =
    some (.invalidOpcode, 0x3#4, 0x2#4, 0x0A7#9, 0x12#8, true) := by decide
/-- V-RES-2. -/
theorem test_reserved_others :
    [statusAfter (poised 0 0x90), statusAfter (poised 0 0x9F), statusAfter (poised 0 0xB0),
      statusAfter (poised 0 0xC3), statusAfter (poised 0 0xD5), statusAfter (poised 0 0xDF)] =
    List.replicate 6 (some .invalidOpcode) := by decide
/-- V-RES-3: the neighbours of the reserved range. -/
theorem test_reserved_neighbours : statusAfter (poised 0 0x8F) = some .cont ∧ statusAfter (poised 0 0xE0) = some .cont := by
  decide
/-- V-O-1. -/
theorem test_out : after ((poised 3 0xE0).setA 0xFF) (fun t => (t.out, t.a, t.mar, t.pc, t.bus)) =
    some (0xFF#8, 0xFF#8, 0x3#4, 0x4#4, 0x0FF#9) := by decide
/-- V-O-2: the low nibble is ignored, and kept in `IR`. -/
theorem test_out_nibble : after ((poised 3 0xE7).setOut 0xFF) (fun t => (t.out, t.irOpcode, t.irOperand)) =
    some (0x00#8, 0xE#4, 0x7#4) := by decide
/-- V-H-2. -/
theorem test_hlt : afterWith (poised 6 0xFE) (fun t st => (t.pc, t.irOpcode, t.irOperand, t.bus, st)) =
    some (0x7#4, 0xF#4, 0xE#4, 0x0FE#9, .halted) := by decide
/-- V-F-4: HLT increments `PC` and wraps. -/
theorem test_hlt_wraps : afterWith (poised 0xF 0xF0) (fun t st => (t.pc, t.mar, st)) = some (0x0#4, 0xF#4, .halted) := by decide
/-- R26, R82, R116: the status is an output only, so the register reset and a memory reset after a HLT leave no trace of the halt. -/
theorem test_halt_leaves_no_trace : after (poised 0 0xF0) (fun t => resetMemory (resetRegisters t)) = some State.reset := by decide
/-- R59: the source's numbers of the statuses. -/
theorem test_statusCode : [statusCode .cont, statusCode .halted, statusCode .invalidOpcode] = [0, 1, -1] := by decide

/-! ## The host's moves and the fetched word -/

/-- E2: `save(4)` after a load of 20 bytes 1, 2, …. -/
theorem test_load_truncates :
    save (some 4) (load [1, 2, 3, 4, 5, 6, 7, 8, 9, 10, 11, 12, 13, 14, 15, 16, 17, 18, 19, 20] State.reset) = [1#8, 2#8, 3#8, 4#8] := by
  decide
/-- E2: a short load leaves the rest; the last cell holds the sixteenth byte. -/
theorem test_load_short :
    let s := load [0xAA, 0xBB] (load [1, 2, 3, 4, 5, 6, 7, 8, 9, 10, 11, 12, 13, 14, 15, 16, 17, 18, 19, 20] State.reset)
    (readCell s 0, readCell s 1, readCell s 2, readCell s 15) = (0xAA#8, 0xBB#8, 0x03#8, 0x10#8) := by decide
/-- V-SV-1, V-LD-1. -/
theorem test_save_nothing_load_nothing : save (some 0) State.reset = [] ∧ load [] State.reset = State.reset := by decide
/-- V-R-2: a memory reset leaves the registers. -/
theorem test_resetMemory : resetMemory (poised 7 0xF0) = State.reset.setPc 7 := by decide
theorem test_withFetchWord : after (State.reset.withFetchWord 8 0x53) (·.a) = some 0x53#8 := by decide
/-- R115, R122: an image of one HLT halts in one cycle. -/
theorem test_run_halts : ∃ t, run 3 (boot [0xF0] (poised 9 0x90)) = .ended t .halted [⟨0x00#8, .halted⟩] := ⟨_, rfl⟩

/-! ## Witnesses: states and operands that meet the hypotheses of the statements -/

theorem witness_StepRunsDecodedInstruction :
    decode [readCell (poised 5 0x60) (poised 5 0x60).pc] = .ok (.jmp 0#4, []) := by
  rw [decode]; exact congrArg _ (Prod.ext (by decide) rfl)

/-- The bytes where the three clauses begin and end. -/
theorem witness_NopReservedAndHltCyclesOnlyFetch :
    (readCell (poised 7 0x0F) (poised 7 0x0F).pc).toNat = 0x0F ∧ (readCell (poised 7 0x00) (poised 7 0x00).pc).toNat = 0x00 ∧
    (readCell (poised 2 0x90) (poised 2 0x90).pc).toNat = 0x90 ∧ (readCell (poised 2 0xDF) (poised 2 0xDF).pc).toNat = 0xDF ∧
    (readCell (poised 6 0xF0) (poised 6 0xF0).pc).toNat = 0xF0 ∧ (readCell (poised 6 0xFF) (poised 6 0xFF).pc).toNat = 0xFF := by
  decide

/-- JC and JZ taken and not taken, and an ADD that sets both flags. -/
theorem witness_ConditionalJumpsAreOneShot :
    (opcodeAt ((poised 4 0x79).setCf true) = 7 ∧ ((poised 4 0x79).setCf true).cf = true) ∧
    (opcodeAt (poised 15 0x70) = 7 ∧ (poised 15 0x70).cf = false) ∧
    (opcodeAt ((poised 4 0x86).setZf true) = 8 ∧ ((poised 4 0x86).setZf true).zf = true) ∧
    (opcodeAt (poised 15 0x8F) = 8 ∧ (poised 15 0x8F).zf = false) ∧
    (let s := writeCell ((poised 1 0x2E).setA 0xFF) 0xE 0x01
     s.cf = false ∧ s.zf = false ∧ after s (fun t => (t.cf, t.zf)) = some (true, true)) := by
  decide

/-- Cycles in which `A`, `B` and both flags change, and one in which a cell does. -/
theorem witness_OnlyTheNamedInstructionsWrite :
    (let s := writeCell ((poised 1 0x2E).setA 0xFF) 0xE 0x01
     after s (fun t => (decide (t.a ≠ s.a), decide (t.b ≠ s.b), decide (t.cf ≠ s.cf), decide (t.zf ≠ s.zf))) =
       some (true, true, true, true)) ∧
    (let s := (poised 2 0x4F).setA 0xFF
     opcodeAt s = 4 ∧ operandAt s = (0xF#4).toNat ∧ after s (fun t => decide (readCell t 0xF ≠ readCell s 0xF)) = some true) := by
  decide

theorem witness_StaStoresAccumulator : (0x0#4 : Nibble) ≠ 0xF#4 := by decide

/-- Two states that differ in all that a cycle does not read. -/
theorem witness_CycleReadsOnlyAPcFlagsAndMemory :
    let s := poised 3 0x2E
    let s' := ((((s.setB 1).setOut 2).setMar 9).setIr 15 1).setBus 0x1FF
    s.a = s'.a ∧ s.pc = s'.pc ∧ s.cf = s'.cf ∧ s.zf = s'.zf ∧ s.mem = s'.mem ∧ s ≠ s' := by decide

/-- At the next address, and where it wraps. -/
theorem witness_StoreIsSeenByTheNextFetch :
    (opcodeAt (poised 1 0x42) = 4 ∧ operandAt (poised 1 0x42) = ((poised 1 0x42).pc.toNat + 1) % 16) ∧
    (opcodeAt (poised 15 0x40) = 4 ∧ operandAt (poised 15 0x40) = ((poised 15 0x40).pc.toNat + 1) % 16) := by decide

/-- A state other than reset that meets the invariant, and its step. -/
theorem witness_StepKeepsInvariant : Inv (poised 3 0xE0) ∧ ∃ t, step (poised 3 0xE0) = .next t :=
  ⟨⟨by decide, fun h => absurd h (by decide)⟩, _, rfl⟩

/-- A state with bit 8 of the bus set that meets the invariant. -/
theorem witness_HostMovesKeepInvariant : Inv ((((poised 3 0xE0).setBus 0x100).setCf true).setIr 2 0) :=
  ⟨by decide, fun _ => by decide⟩

theorem witness_SaveReturnsCellsInOrder : (0x0#4 : Nibble).toNat < 1 ∧ (0xF#4 : Nibble).toNat < 16 := by decide

theorem witness_LoadOfSavedMemoryRestoresIt : (poised 3 0xE0).mem.wf = true ∧ (poised 15 0x12).mem.wf = true := by decide

/-- A run that ends, normally and as a failure, and one that is still running. -/
theorem witness_RunEndsAtFirstTerminalStatus :
    (∃ t seen, run 2 (poised 0 0xF0) = .ended t .halted seen) ∧ (∃ t seen, run 1 (poised 15 0xDF) = .ended t .invalidOpcode seen) ∧
    (∃ t seen, run 2 State.reset = .running t seen) :=
  ⟨⟨_, _, rfl⟩, ⟨_, _, rfl⟩, ⟨_, _, rfl⟩⟩

/-- The reset memory, and one that holds NOPs with other low nibbles, up to the last. -/
theorem witness_MemoryOfNopsRunsForEver :
    (∀ x : Nibble, (readCell State.reset x).toNat ≤ 0x0F) ∧ ∀ x : Nibble, (readCell (poised 15 0x0F) x).toNat ≤ 0x0F := by decide

end Sys2Proof.Tests
end

section
/-! What one cycle does, said once: the Execute stage as a total function of the state, each arm in the writers of
Machine/Ops.lean, and the whole cycle as that function after Fetch. Proofs about whole cycles speak of `afterCycle`. -/

namespace Sys2Proof.Machine

/-! ## The Execute stage -/

/-- The state that the Execute stage of an instruction leaves (R57); `exec_eq` ties it to the model. A conditional jump's test stands
at the two fields it decides: the flag tested is clear afterwards, taken or not (R79), and no other field depends on it. -/
def effect (i : Instr) (s : State) : State :=
  match i with
  | .lda a => ((s.setMar a).setBus (zextByte (readCell s a))).setA (readCell s a)
  | .add a => keepResult (busSum s.a (readCell s a)) ((s.setMar a).setB (readCell s a))
  | .sub a => keepResult (busDifference s.a (readCell s a)) ((s.setMar a).setB (readCell s a))
  | .sta a => ((writeCell s a s.a).setMar a).setBus (zextByte s.a)
  | .ldi v => (s.setBus (zextByte (encodeByte (.ldi v)))).setA (encodeByte (.ldi v))
  | .jmp a => (s.setBus (zextByte (encodeByte (.jmp a)))).setPc a
  | .jc a => ((s.setBus (if s.cf then zextByte (encodeByte (.jc a)) else s.bus)).setPc (if s.cf then a else s.pc)).setCf false
  | .jz a => ((s.setBus (if s.zf then zextByte (encodeByte (.jz a)) else s.bus)).setPc (if s.zf then a else s.pc)).setZf false
  | .out _ => (s.setBus (zextByte s.a)).setOut s.a
  | .nop _ | .hlt _ | .reserved9 _ | .reserved10 _ | .reserved11 _ | .reserved12 _ | .reserved13 _ => s

/-- Every instruction completes, with its effect (R57, R62). -/
theorem exec_eq (i : Instr) (s : State) : exec i s = .next (effect i s) := by
  cases i with
  | lda a =>
    simp only [exec, execLda, endCycle_eq, selectAddress_eq, cellToBus_eq, busToA_eq, lowByte_zextByte]
    rfl
  | add a => simp only [exec, execAdd, endCycle_eq, selectAddress_eq, cellToB_eq]; rfl
  | sub a => simp only [exec, execSub, endCycle_eq, selectAddress_eq, cellToB_eq]; rfl
  | sta a =>
    simp only [exec, execSta, endCycle_eq, selectAddress_eq, aToBus_eq, busToCell_eq, lowByte_zextByte]
    rfl
  | ldi v =>
    simp only [exec, execLdi, endCycle_eq, recombine_eq, busToA_eq, lowByte_zextByte]
    rfl
  | jmp a => simp only [exec, execJmp, endCycle_eq, jumpTo_eq]; rfl
  | jc a =>
    obtain ⟨_, _, _, _, _, _, _, cf, _, _, _⟩ := s
    cases cf <;> simp only [exec, execJc, endCycle_eq, jumpTo_eq] <;> rfl
  | jz a =>
    obtain ⟨_, _, _, _, _, _, _, _, zf, _, _⟩ := s
    cases zf <;> simp only [exec, execJz, endCycle_eq, jumpTo_eq] <;> rfl
  | out x => simp only [exec, execOut, endCycle_eq, aToBus_eq, busToOut_eq, lowByte_zextByte]; rfl
  | _ => rfl

/-! ## What the Execute stage writes, field by field -/

/-- `PC` is written by a taken jump only (R15, R78). -/
theorem effect_pc (i : Instr) (s : State) :
    (effect i s).pc =
      if (opcodeOf i).toNat = 6 ∨ ((opcodeOf i).toNat = 7 ∧ s.cf = true) ∨ ((opcodeOf i).toNat = 8 ∧ s.zf = true)
      then operandOf i else s.pc := by
  cases i with
  | jc _ | jz _ => simp [effect, opcodeOf, operandOf]
  | _ => rfl

/-- `MAR` is written by a data access only (R19). -/
theorem effect_mar (i : Instr) (s : State) :
    (effect i s).mar = if 1 ≤ (opcodeOf i).toNat ∧ (opcodeOf i).toNat ≤ 4 then operandOf i else s.mar := by
  cases i <;> rfl

/-- `IR` is written by Fetch only (R20). -/
theorem effect_ir (i : Instr) (s : State) :
    (effect i s).irOpcode = s.irOpcode ∧ (effect i s).irOperand = s.irOperand := by
  cases i <;> exact ⟨rfl, rfl⟩

/-- `A` is written by LDA, ADD, SUB and LDI only (R11). -/
theorem opcode_of_effect_a_ne {i : Instr} {s : State} (h : (effect i s).a ≠ s.a) :
    (opcodeOf i).toNat = 1 ∨ (opcodeOf i).toNat = 2 ∨ (opcodeOf i).toNat = 3 ∨ (opcodeOf i).toNat = 5 := by
  cases i with
  | lda _ | add _ | sub _ | ldi _ => simp [opcodeOf]
  | _ => exact absurd rfl h

/-- `B` is written by ADD and SUB only (R12). -/
theorem opcode_of_effect_b_ne {i : Instr} {s : State} (h : (effect i s).b ≠ s.b) :
    (opcodeOf i).toNat = 2 ∨ (opcodeOf i).toNat = 3 := by
  cases i with
  | add _ | sub _ => simp [opcodeOf]
  | _ => exact absurd rfl h

/-- `CF` is written by ADD, SUB and JC only (R17). -/
theorem opcode_of_effect_cf_ne {i : Instr} {s : State} (h : (effect i s).cf ≠ s.cf) :
    (opcodeOf i).toNat = 2 ∨ (opcodeOf i).toNat = 3 ∨ (opcodeOf i).toNat = 7 := by
  cases i with
  | add _ | sub _ | jc _ => simp [opcodeOf]
  | _ => exact absurd rfl h

/-- `ZF` is written by ADD, SUB and JZ only (R18). -/
theorem opcode_of_effect_zf_ne {i : Instr} {s : State} (h : (effect i s).zf ≠ s.zf) :
    (opcodeOf i).toNat = 2 ∨ (opcodeOf i).toNat = 3 ∨ (opcodeOf i).toNat = 8 := by
  cases i with
  | add _ | sub _ | jz _ => simp [opcodeOf]
  | _ => exact absurd rfl h

/-- A store of one cell, read back at any (R35, R37). -/
theorem readCell_writeCell (s : State) (x y : Nibble) (v : Byte) :
    readCell (writeCell s x v) y = if x = y then v else readCell s y := by
  split
  case isTrue h => rw [← h, readCell_writeCell_self]
  case isFalse h => exact readCell_writeCell_ne (Ne.symm h) s v

/-- A cell is written by STA only, and only the one its operand names (R22, R30). -/
theorem readCell_effect (i : Instr) (s : State) (x : Nibble) :
    readCell (effect i s) x = if (opcodeOf i).toNat = 4 ∧ operandOf i = x then s.a else readCell s x := by
  cases i with
  | sta a =>
    calc readCell (effect (.sta a) s) x
        = readCell (writeCell s a s.a) x := rfl
      _ = if a = x then s.a else readCell s x := readCell_writeCell s a x s.a
      _ = _ := by simp [opcodeOf, operandOf]
  | _ => rfl

/-- `OUT` is written by the OUT instruction only (R13). -/
theorem effect_out (i : Instr) (s : State) :
    (effect i s).out = if (opcodeOf i).toNat = 14 then s.a else s.out := by
  cases i <;> rfl

/-! ## What the Execute stage does not read -/

/-- `OUT` is read by no instruction: another `OUT` before is at most another `OUT` after (R13). -/
theorem effect_setOut (i : Instr) (s : State) (v : Byte) :
    effect i (s.setOut v) = (effect i s).setOut (if (opcodeOf i).toNat = 14 then s.a else v) := by
  cases i <;> rfl

/-- `B` is read by no instruction before it is written: ADD and SUB copy their cell to it first (R12). -/
theorem effect_setB (i : Instr) (s : State) (v : Byte) :
    effect i (s.setB v) =
      (effect i s).setB (if (opcodeOf i).toNat = 2 ∨ (opcodeOf i).toNat = 3 then readCell s (operandOf i) else v) := by
  cases i <;> rfl

/-! ## The whole cycle -/

/-- The instruction that the next cycle fetches (R54). -/
def fetchedInstr (s : State) : Instr := decodeByte (readCell s s.pc)

/-- The state that the cycle from a state leaves (R53); `step_eq` ties it to the model. -/
def afterCycle (s : State) : State := effect (fetchedInstr s) (fetch s)

/-- Every cycle ends with a next state (R53, R62). -/
theorem step_eq (s : State) : step s = .next (afterCycle s) := by
  have hi : decodeFields (fetch s).irOpcode (fetch s).irOperand = fetchedInstr s := by rw [fetch_eq]; rfl
  simp only [step, hi, exec_eq, afterCycle]

theorem invoke_eq (s : State) : invoke s = .next (afterCycle s, cycleStatus s) := by
  rw [invoke, step_eq]

open Sys2Proof.Safety

theorem opcodeOf_fetchedInstr_toNat (s : State) : (opcodeOf (fetchedInstr s)).toNat = opcodeAt s := by
  rw [fetchedInstr, decodeByte, opcodeOf_decodeFields, byteOpcode_toNat, opcodeAt]

theorem operandOf_fetchedInstr_toNat (s : State) : (operandOf (fetchedInstr s)).toNat = operandAt s := by
  rw [fetchedInstr, decodeByte, operandOf_decodeFields, byteOperand_toNat, operandAt]

/-- Fetch reads `PC` and memory only, and writes neither `B` nor `OUT`; what it does not write it keeps (R54). -/
theorem fetch_eq_of_agree {s s' : State} (ha : s.a = s'.a) (hpc : s.pc = s'.pc) (hcf : s.cf = s'.cf) (hzf : s.zf = s'.zf)
    (hmem : s.mem = s'.mem) : fetch s' = ((fetch s).setB s'.b).setOut s'.out := by
  simp only [fetch_eq, State.setB, State.setOut, ha, hpc, hcf, hzf, hmem, readCell]

/-- The cycle reads `PC`, memory, `A` and the flags only: two states that agree on them go to states that differ in `B` and `OUT` at
most (R12, R13, R25). -/
theorem afterCycle_eq_of_agree {s s' : State} (ha : s.a = s'.a) (hpc : s.pc = s'.pc) (hcf : s.cf = s'.cf) (hzf : s.zf = s'.zf)
    (hmem : s.mem = s'.mem) : ∃ b out, afterCycle s' = ((afterCycle s).setB b).setOut out := by
  have hi : fetchedInstr s' = fetchedInstr s := by
    rw [fetchedInstr, fetchedInstr, readCell_congr hmem, hpc]
  rw [afterCycle, hi, fetch_eq_of_agree ha hpc hcf hzf hmem, effect_setOut, effect_setB]
  exact ⟨_, _, rfl⟩

/-! ## The host's load -/

/-- A load writes memory only (R88). -/
theorem loadFrom_eq_setMem (bytes : List Byte) (n : Nat) (s : State) : ∃ m, loadFrom n bytes s = s.setMem m := by
  induction bytes generalizing n s with
  | nil => exact ⟨s.mem, rfl⟩
  | cons v vs ih =>
    rw [loadFrom]
    split
    · exact ih (n + 1) (writeCell s (BitVec.ofNat 4 n) v)
    · exact ⟨s.mem, rfl⟩

end Sys2Proof.Machine
end

section
/-! The family of spec/10_state.md: what the registers, flags and memory hold after reset and after a cycle, and who writes and reads
them. -/

namespace Sys2Proof.Proofs

open Sys2Proof.Machine Sys2Proof.Safety

/-- Settles O29: the bus is 0, so its bit 8 is clear. -/
theorem resetMeetsInvariant : Obligations.ResetMeetsInvariant :=
  ⟨reset_mem_wf, fun h => absurd h (by decide)⟩

/-- Settles O31: the two resets together write every field of the state. -/
theorem resetStateIsAllZero : Obligations.ResetStateIsAllZero :=
  ⟨⟨rfl, rfl, rfl, rfl, rfl, rfl, rfl, rfl, rfl, rfl, fun _ => rfl⟩, fun _ => rfl⟩

/-- Settles O23, from what the Execute stage writes of `PC`, `MAR` and `IR` after Fetch. -/
theorem pcMarAndIrAfterACycle : Obligations.PcMarAndIrAfterACycle := by
  intro s
  obtain ⟨hop, hopd⟩ := effect_ir (fetchedInstr s) (fetch s)
  refine ⟨afterCycle s, step_eq s, ?_, ?_, ?_, ?_⟩
  · simp only [afterCycle, effect_pc, opcodeOf_fetchedInstr_toNat, fetch_eq]
    split
    · exact operandOf_fetchedInstr_toNat s
    · exact BitVec.toNat_add s.pc 1#4
  · simp only [afterCycle, effect_mar, opcodeOf_fetchedInstr_toNat, fetch_eq]
    split
    · exact operandOf_fetchedInstr_toNat s
    · rfl
  · rw [afterCycle, hop, fetch_eq]
    exact byteOpcode_toNat _
  · rw [afterCycle, hopd, fetch_eq]
    exact byteOperand_toNat _

/-- Settles O24: Fetch writes none of these, and the Execute stage only as its opcode says. -/
theorem onlyTheNamedInstructionsWrite : Obligations.OnlyTheNamedInstructionsWrite := by
  intro s
  rw [← opcodeOf_fetchedInstr_toNat, ← operandOf_fetchedInstr_toNat]
  refine ⟨afterCycle s, step_eq s, opcode_of_effect_a_ne, opcode_of_effect_b_ne, opcode_of_effect_cf_ne,
    opcode_of_effect_zf_ne, fun x => ?_⟩
  simp only [BitVec.toNat_inj]
  exact readCell_effect (fetchedInstr s) (fetch s) x

/-- Of the host's moves only the register reset writes `OUT` (R13). -/
theorem applyMove_out (m : HostMove) (s : State) : (applyMove m s).out = if m = .resetRegisters then 0x00#8 else s.out := by
  cases m with
  | load bytes =>
    obtain ⟨m, hm⟩ := loadFrom_eq_setMem bytes 0 s
    simp [applyMove, load, hm]
  | _ => rfl

/-- Settles O25: the writers of `OUT` from the lemmas of the Execute stage and of the host's moves; that nothing reads it, from
`effect_setOut`. -/
theorem outRegisterIsWriteOnly : Obligations.OutRegisterIsWriteOnly := by
  intro s
  rw [← opcodeOf_fetchedInstr_toNat]
  refine ⟨fun m => applyMove_out m s, afterCycle s, step_eq s, effect_out (fetchedInstr s) (fetch s), rfl, fun v => ?_⟩
  calc step (s.setOut v)
      = .next (effect (fetchedInstr s) ((fetch s).setOut v)) := step_eq (s.setOut v)
    _ = _ := by rw [effect_setOut]; rfl

/-- Settles O26: the two cycles fetch the same byte, and leave states that differ in `B` and `OUT` at most. -/
theorem cycleReadsOnlyAPcFlagsAndMemory : Obligations.CycleReadsOnlyAPcFlagsAndMemory := by
  intro s s' ha hpc hcf hzf hmem
  have hst : cycleStatus s' = cycleStatus s := by
    rw [cycleStatus_eq, cycleStatus_eq, readCell_congr hmem, hpc]
  obtain ⟨b, out, h⟩ := afterCycle_eq_of_agree ha hpc hcf hzf hmem
  refine ⟨afterCycle s, afterCycle s', cycleStatus s, invoke_eq s, ?_, ?_⟩
  · rw [invoke_eq, hst]
  · simp [h]

end Sys2Proof.Proofs
end

section
/-! The family of spec/20_memory.md: program and data share the sixteen cells, so a cycle may run a byte that the cycle before stored. -/

namespace Sys2Proof.Proofs

open Sys2Proof.Machine Sys2Proof.Safety

/-- The cycle runs the instruction of the byte at `PC` on the fetched state (R53, R57). -/
theorem step_eq_exec_fetchedInstr (s : State) : step s = exec (fetchedInstr s) (fetch s) :=
  (step_eq s).trans (exec_eq (fetchedInstr s) (fetch s)).symm

/-- The cycle of a store goes on to the next cell, around the end of memory (R15, R55). -/
theorem afterCycle_pc_of_sta {s : State} (hop : opcodeAt s = 4) : (afterCycle s).pc = s.pc + 1#4 := by
  simp [afterCycle, effect_pc, opcodeOf_fetchedInstr_toNat, hop, fetch_eq]

/-- The cycle of a store leaves `A` in the cell its operand names (R30, R67). -/
theorem readCell_afterCycle_of_sta {s : State} (hop : opcodeAt s = 4) {x : Nibble} (hx : operandAt s = x.toNat) :
    readCell (afterCycle s) x = s.a := by
  have hopd : operandOf (fetchedInstr s) = x := BitVec.eq_of_toNat_eq ((operandOf_fetchedInstr_toNat s).trans hx)
  simp [afterCycle, readCell_effect, opcodeOf_fetchedInstr_toNat, hop, hopd, fetch_eq]

/-- Settles O27: the cell stored to is the one `PC` has come to, and Fetch reads memory as the store left it. -/
theorem storeIsSeenByTheNextFetch : Obligations.StoreIsSeenByTheNextFetch := by
  intro s hop hnext
  have hcell : readCell (afterCycle s) (afterCycle s).pc = s.a := by
    rw [afterCycle_pc_of_sta hop]
    exact readCell_afterCycle_of_sta hop (hnext.trans (BitVec.toNat_add s.pc 1#4).symm)
  refine ⟨afterCycle s, step_eq s, hcell, ?_⟩
  rw [step_eq_exec_fetchedInstr, fetchedInstr, hcell]

end Sys2Proof.Proofs
end

section
/-! Encoder and decoder, said once: each is the other's inverse (spec/30_encoding.md rules R43, R46, R47), the value of an instruction's
byte is 16 times its opcode plus its operand, and the opcode table's mask keeps the opcode alone. -/

namespace Sys2Proof

/-! ## The encoder and the decoder are inverse -/

theorem decodeByte_encodeByte (i : Instr) : decodeByte (encodeByte i) = i := by
  rw [decodeByte, byteOpcode_encodeByte, byteOperand_encodeByte, Laws.Encoding.row]

theorem encodeByte_decodeByte (w : Byte) : encodeByte (decodeByte w) = w := by
  rw [encodeByte, decodeByte, opcodeOf_decodeFields, operandOf_decodeFields, joinByte_split]

/-! ## The value of an instruction's byte (R43) -/

theorem encodeByte_toNat (i : Instr) : (encodeByte i).toNat = 16 * (opcodeOf i).toNat + (operandOf i).toNat := by
  have hop := byteOpcode_toNat (encodeByte i)
  have hopd := byteOperand_toNat (encodeByte i)
  rw [byteOpcode_encodeByte] at hop
  rw [byteOperand_encodeByte] at hopd
  omega

theorem encodeByte_eq_ofNat (i : Instr) : encodeByte i = BitVec.ofNat 8 (16 * (opcodeOf i).toNat + (operandOf i).toNat) := by
  rw [← encodeByte_toNat, BitVec.ofNat_toNat, BitVec.setWidth_eq]

/-- The recombined instruction byte on the bus (R44). -/
theorem zextByte_encodeByte_eq_ofNat (i : Instr) :
    Machine.zextByte (encodeByte i) = BitVec.ofNat 9 (16 * (opcodeOf i).toNat + (operandOf i).toNat) := by
  rw [← encodeByte_toNat, BitVec.ofNat_toNat, Machine.zextByte]

/-! ## The opcode table (R47) -/

/-- The mask of the opcode table clears the operand and keeps the opcode. -/
theorem joinByte_and_mask : ∀ o x : Nibble, joinByte o x &&& 0xF0#8 = joinByte o 0x0#4 := by decide

/-- Whether a row of the table fits an instruction's byte is a matter of the opcode alone. -/
theorem rowMatches_encodeByte {r : OpcodeRow} (hr : r ∈ opcodeRows) (i : Instr) :
    rowMatches r (encodeByte i) = (joinByte (opcodeOf i) 0x0#4 == r.matchBits) := by
  have hmask : ∀ r ∈ opcodeRows, r.mask = 0xF0#8 := by decide
  rw [rowMatches, hmask r hr, encodeByte, joinByte_and_mask]

/-- The one row of the table that fits an instruction's byte is the row of its operation (R46, R47). -/
theorem mnemonics_of_rows_matching_encodeByte (i : Instr) :
    (opcodeRows.filter fun r => rowMatches r (encodeByte i)).map OpcodeRow.mnemonic = [mnemonicOf i] := by
  rw [List.filter_congr fun r hr => rowMatches_encodeByte hr i]
  cases i <;> simp [opcodeRows, opcodeOf, mnemonicOf, joinByte]

end Sys2Proof
end

section
/-! The family of spec/30_encoding.md: the encoder and the decoder agree, both ways, with each other and with the opcode table. -/

namespace Sys2Proof.Proofs

open Sys2Proof.Machine

/-- Settles O1: the byte that `decode` takes off is the instruction's own. -/
theorem decodeOfEncodeGivesInstruction : Obligations.DecodeOfEncodeGivesInstruction := by
  intro i rest
  calc decode (encode i ++ rest)
      = .ok (decodeByte (encodeByte i), rest) := rfl
    _ = .ok (i, rest) := by rw [decodeByte_encodeByte]

/-- Settles O2: the instruction is the one the byte decodes to, and any other with that encoding would decode to it as well. -/
theorem everyByteEncodesOneInstruction : Obligations.EveryByteEncodesOneInstruction := by
  intro w
  refine ⟨decodeByte w, rfl, ?_, fun j hj => ?_⟩
  · rw [encode, encodeByte_decodeByte]
  · have hw : encodeByte j = w := List.singleton_inj.mp hj
    rw [← hw, decodeByte_encodeByte]

/-- Settles O11: the byte 0x50 | v is the encoding of LDI v, and it is what `recombine` puts on the bus. -/
theorem ldiLoadsInstructionByte : Obligations.LdiLoadsInstructionByte := by
  intro v s
  refine ⟨decodeByte_encodeByte (.ldi v), rfl, ?_⟩
  calc exec (.ldi v) s
      = .next { s with a := encodeByte (.ldi v), bus := zextByte (encodeByte (.ldi v)) } := exec_eq (.ldi v) s
    _ = _ := by rw [zextByte_encodeByte_eq_ofNat, encodeByte_eq_ofNat]; rfl

/-- Settles O3, by evaluation of the decoder on the twelve bytes. -/
theorem writtenOutBytesDecode : Obligations.WrittenOutBytesDecode :=
  ⟨rfl, rfl, rfl, rfl, rfl, rfl, rfl, rfl, rfl, rfl, rfl, rfl⟩

/-- Settles O4: every byte is an instruction's encoding, and the table has one row for each opcode. -/
theorem eachByteMatchesOneOpcodeRow : Obligations.EachByteMatchesOneOpcodeRow := by
  intro w
  have hrows := mnemonics_of_rows_matching_encodeByte (decodeByte w)
  rwa [encodeByte_decodeByte] at hrows

end Sys2Proof.Proofs
end

section
/-! What every cycle keeps and returns (spec/40_instruction_cycle.md): the canonical form of memory, rule R64 of the bus, and the status
of rule R59. -/

namespace Sys2Proof.Machine

/-! ## Memory and the bus, instruction by instruction (R22, R64) -/

/-- Only STA writes memory, and a store keeps the canonical form (R22, R30). -/
theorem effect_mem_wf (i : Instr) {s : State} (hs : s.mem.wf = true) : (effect i s).mem.wf = true := by
  cases i with
  | sta a => exact writeCell_wf hs a s.a
  | _ => exact hs

/-- Bit 8 of the bus, if the Execute stage sets it, is the carry of an ADD or the borrow of a SUB: every other value that an instruction
puts on the bus is a byte (R64). -/
theorem cf_and_opcode_of_carryOf_effect_bus {i : Instr} {s : State} (hs : carryOf s.bus = false)
    (h : carryOf (effect i s).bus = true) : (effect i s).cf = true ∧ (opcodeOf i = 0x2#4 ∨ opcodeOf i = 0x3#4) := by
  have hbyte (v : Byte) : carryOf (zextByte v) ≠ true := by rw [carryOf_zextByte]; decide
  cases i with
  | add _ => exact ⟨h, .inl rfl⟩
  | sub _ => exact ⟨h, .inr rfl⟩
  | lda _ | sta _ | ldi _ | jmp _ | out _ => exact absurd h (hbyte _)
  | jc _ | jz _ =>
    simp only [effect, State.setCf_bus, State.setZf_bus, State.setPc_bus, State.setBus_bus] at h
    split at h
    · exact absurd h (hbyte _)
    · exact absurd h (by simp [hs])
  | _ => exact absurd h (by simp [effect, hs])

/-! ## Memory and the bus, of the whole cycle -/

/-- Fetch leaves a byte on the bus (R54). -/
theorem carryOf_fetch_bus (s : State) : carryOf (fetch s).bus = false := by
  rw [fetch_eq]; exact carryOf_zextByte _

/-- The instruction that `IR` holds after Fetch is the one fetched (R54, R57). -/
theorem fetch_ir (s : State) :
    (fetch s).irOpcode = opcodeOf (fetchedInstr s) ∧ (fetch s).irOperand = operandOf (fetchedInstr s) := by
  rw [fetch_eq, fetchedInstr, decodeByte, opcodeOf_decodeFields, operandOf_decodeFields]
  exact ⟨rfl, rfl⟩

/-- `IR` ends the cycle with the opcode of the instruction that ran (R20, R54). -/
theorem afterCycle_irOpcode (s : State) : (afterCycle s).irOpcode = opcodeOf (fetchedInstr s) := by
  obtain ⟨hkept, -⟩ := effect_ir (fetchedInstr s) (fetch s)
  obtain ⟨hop, -⟩ := fetch_ir s
  rw [afterCycle, hkept, hop]

/-- The cycle keeps memory canonical: Fetch does not write it (R54). -/
theorem afterCycle_mem_wf {s : State} (hs : s.mem.wf = true) : (afterCycle s).mem.wf = true :=
  effect_mem_wf (fetchedInstr s) (by rw [fetch_eq]; exact hs)

/-- Whatever the bus held before, the cycle leaves bit 8 set only by an ADD with carry or a SUB with borrow (R64). -/
theorem afterCycle_busBitEightFromAlu (s : State) : Safety.BusBitEightFromAlu (afterCycle s) := by
  intro h
  rw [afterCycle_irOpcode]
  exact cf_and_opcode_of_carryOf_effect_bus (carryOf_fetch_bus s) h

/-! ## The status of a cycle (R59) -/

/-- The status an operation returns, by opcode (R59). -/
theorem returnedStatus_eq (i : Instr) :
    returnedStatus i = if (opcodeOf i).toNat = 15 then .halted
      else if 9 ≤ (opcodeOf i).toNat ∧ (opcodeOf i).toNat ≤ 13 then .invalidOpcode else .cont := by
  cases i <;> rfl

/-- The status of a cycle is that of the instruction it fetches (R57, R59). -/
theorem cycleStatus_eq_fetchedInstr (s : State) : cycleStatus s = returnedStatus (fetchedInstr s) := cycleStatus_eq s

end Sys2Proof.Machine
end

section
/-! The reference step function of spec/40_instruction_cycle.md rule R63 is the cycle. Its arithmetic on numbers is first read as the
model's operations on the bus; then its body is compared with the meanings, instruction by instruction. -/

namespace Sys2Proof.Machine

/-! ## The reference's arithmetic, as the model's bus operations (R7, R21) -/

theorem ofNat_toNat_eq_zextNibble (x : Nibble) : BitVec.ofNat 9 x.toNat = zextNibble x := BitVec.ofNat_toNat 9 x

theorem ofNat_toNat_eq_zextByte (v : Byte) : BitVec.ofNat 9 v.toNat = zextByte v := BitVec.ofNat_toNat 9 v

theorem ofNat_toNat_eq_lowByte (w : BusWord) : BitVec.ofNat 8 w.toNat = lowByte w :=
  BitVec.eq_of_toNat_eq (lowByte_toNat w).symm

theorem ofNat_toNat_eq_lowNibble (w : BusWord) : BitVec.ofNat 4 w.toNat = lowNibble w := by
  apply BitVec.eq_of_toNat_eq
  simp [lowNibble]

theorem ofNat_toNat_div_eq_highNibble (w : BusWord) : BitVec.ofNat 4 (w.toNat / 16) = highNibble w := by
  apply BitVec.eq_of_toNat_eq
  simp [highNibble, Nat.shiftRight_eq_div_pow]

theorem ofNat_succ_mod_eq_add_one (x : Nibble) : BitVec.ofNat 4 ((x.toNat + 1) % 16) = x + 1#4 := by
  apply BitVec.eq_of_toNat_eq
  simp [BitVec.toNat_add]

/-- The recombined instruction register is the byte of its two halves (R43, R44). -/
theorem recombinedIr_eq (s : State) : recombinedIr s = zextByte (joinByte s.irOpcode s.irOperand) := by
  have hjoin : ∀ o x : Nibble, (o.setWidth 9 <<< 4) ||| x.setWidth 9 = zextByte (joinByte o x) := by decide
  exact hjoin s.irOpcode s.irOperand

/-- The sum modulo 512 (R69). -/
theorem ofInt_add_eq_busSum (x y : Byte) : BitVec.ofInt 9 (((x.toNat : Int) + y.toNat) % 512) = busSum x y := by
  apply BitVec.eq_of_toNat_eq
  rw [BitVec.toNat_ofInt, busSum_toNat]
  omega

/-- The difference modulo 512 (R70). -/
theorem ofInt_sub_eq_busDifference (x y : Byte) :
    BitVec.ofInt 9 (((x.toNat : Int) - y.toNat) % 512) = busDifference x y := by
  apply BitVec.eq_of_toNat_eq
  rw [BitVec.toNat_ofInt, busDifference_toNat]
  omega

/-- `ZF` by the number of the byte (R73). -/
theorem decide_toNat_eq_zeroOf (v : Byte) : decide (v.toNat = 0) = zeroOf v := by
  rw [zeroOf, Bool.beq_eq_decide_eq, decide_eq_decide]
  exact BitVec.toNat_inj (y := 0x00#8)

/-! ## The reference's cycle -/

/-- The state that a meaning ends the cycle in is its instruction's effect (R57). -/
theorem eq_effect_of_exec {i : Instr} {s t : State} (h : exec i s = endCycle t) : t = effect i s :=
  Host.Outcome.next.inj (h.symm.trans (exec_eq i s))

/-- After Fetch, the recombined instruction register is the byte of the instruction fetched (R44, R54). -/
theorem recombinedIr_fetch (s : State) : recombinedIr (fetch s) = zextByte (encodeByte (fetchedInstr s)) := by
  obtain ⟨hop, hopd⟩ := fetch_ir s
  rw [recombinedIr_eq, hop, hopd, encodeByte]

/-- The reference function is the cycle (R63): its first six assignments are Fetch, and the branch that the fetched opcode selects is
that instruction's meaning, with the status it returns. -/
theorem referenceStep_eq (s : State) : referenceStep s = (afterCycle s, cycleStatus s) := by
  unfold referenceStep
  extract_lets +onlyGivenNames s1 s2 s3 s4 s5 t
  have ht : t = fetch s := by
    simp only [t, s5, s4, s3, s2, s1, ofNat_toNat_eq_zextNibble, ofNat_toNat_eq_zextByte, ofNat_toNat_eq_lowNibble,
      ofNat_toNat_div_eq_highNibble, ofNat_succ_mod_eq_add_one]
    rfl
  clear_value t
  have hop : t.irOpcode.toNat = (opcodeOf (fetchedInstr s)).toNat := by rw [ht, (fetch_ir s).left]
  have hir : recombinedIr t = zextByte (encodeByte (fetchedInstr s)) := by rw [ht, recombinedIr_fetch]
  rw [hop, cycleStatus_eq_fetchedInstr, afterCycle, ← ht]
  simp only [hir, ofNat_toNat_eq_zextByte, ofNat_toNat_eq_lowNibble, ofNat_toNat_eq_lowByte, ofInt_add_eq_busSum,
    ofInt_sub_eq_busDifference, ← carryOf_eq, decide_toNat_eq_zeroOf]
  generalize fetchedInstr s = i
  -- Stated before the case split: `effect` of a constructor unfolds, and then no longer fits the lemma's conclusion.
  have heffect {u : State} (h : exec i t = endCycle u) : u = effect i t := eq_effect_of_exec h
  cases i with
  | jc _ | jz _ =>
    simp only [opcodeOf, BitVec.toNat_ofNat, Nat.reducePow, Nat.reduceMod]
    rw [← heffect rfl]
    split <;> rfl
  | _ => exact Prod.ext (heffect rfl) rfl

end Sys2Proof.Machine
end

section
/-! The family of spec/40_instruction_cycle.md: a cycle is Fetch and then the fetched instruction's meaning, it is the reference
function, and it keeps the invariant. -/

namespace Sys2Proof.Proofs

open Sys2Proof.Machine Sys2Proof.Safety

/-- Settles O28: the memory part from the store's, the bus part from the values that the instructions put on the bus. -/
theorem stepKeepsInvariant : Obligations.StepKeepsInvariant := by
  rintro s t ⟨hmem, -⟩ hstep
  obtain rfl : afterCycle s = t := Host.Outcome.next.inj ((step_eq s).symm.trans hstep)
  exact ⟨afterCycle_mem_wf hmem, afterCycle_busBitEightFromAlu s⟩

/-- Settles O6, field by field from `fetch_eq`; that every cycle begins with Fetch is the definition of the step. -/
theorem fetchWritesBusMarIrAndPc : Obligations.FetchWritesBusMarIrAndPc := by
  intro s
  refine ⟨?_, rfl⟩
  rw [fetch_eq]
  exact ⟨zextByte_toNat _, rfl, byteOpcode_toNat _, byteOperand_toNat _, BitVec.toNat_add s.pc 1#4, rfl, rfl, rfl, rfl, rfl, rfl⟩

/-- Settles O7: the next state is `afterCycle`, and the status goes by the fetched opcode. -/
theorem everyCycleReturnsItsOpcodesStatus : Obligations.EveryCycleReturnsItsOpcodesStatus := by
  intro s
  refine ⟨afterCycle s, step_eq s, ?_⟩
  rw [invoke_eq, cycleStatus_eq_fetchedInstr, returnedStatus_eq, opcodeOf_fetchedInstr_toNat]

/-- Settles O8: the reference function's pair is the cycle's state and status. -/
theorem stepIsTheReferenceFunction : Obligations.StepIsTheReferenceFunction := by
  intro s
  rw [referenceStep_eq]
  exact ⟨invoke_eq s, step_eq s⟩

/-- Settles O5: the instruction is the one that the byte at `PC` decodes to. -/
theorem stepRunsDecodedInstruction : Obligations.StepRunsDecodedInstruction := by
  intro s i hdecode
  obtain rfl : fetchedInstr s = i := congrArg Prod.fst (Except.ok.inj hdecode)
  exact step_eq_exec_fetchedInstr s

end Sys2Proof.Proofs
end

section
/-! The family of spec/41_load_store_immediate.md: LDA and STA move one byte between `A` and the cell that the operand names. -/

namespace Sys2Proof.Proofs

open Sys2Proof.Machine

/-- Settles O9: the effect of LDA, with the cell's byte left on the bus. -/
theorem ldaLoadsCell : Obligations.LdaLoadsCell := by
  intro a s
  exact ⟨rfl, zextByte (readCell s a), exec_eq (.lda a) s⟩

/-- Settles O10: the memory is the one that the store of `A` leaves, read back at the operand and at every other address. -/
theorem staStoresAccumulator : Obligations.StaStoresAccumulator := by
  intro a s
  refine ⟨rfl, (writeCell s a s.a).mem, zextByte s.a, exec_eq (.sta a) s, ?_, fun x hx => ?_⟩
  · exact readCell_writeCell_self s a s.a
  · exact readCell_writeCell_ne hx s s.a

end Sys2Proof.Proofs
end

section
/-! The laws of the 9-bit result that ADD and SUB form (spec/42_arithmetic.md rules R69 to R73): its carry and zero flags, read as facts
about the two operands. -/

namespace Sys2Proof.Machine

/-! ## The carry (R72) -/

theorem carryOf_busSum_iff (x y : Byte) : carryOf (busSum x y) = true ↔ 256 ≤ x.toNat + y.toNat := by
  rw [carryOf_eq, decide_eq_true_iff, busSum_toNat]

/-- A difference below zero wraps to 512 less the shortfall, which is at most 255. -/
theorem carryOf_busDifference_iff (x y : Byte) : carryOf (busDifference x y) = true ↔ x.toNat < y.toNat := by
  rw [carryOf_eq, decide_eq_true_iff, busDifference_toNat]
  have := x.isLt; have := y.isLt
  omega

/-! ## The zero flag, of the masked result (R73) -/

theorem zeroOf_iff (v : Byte) : zeroOf v = true ↔ v = 0#8 := beq_iff_eq

theorem zeroOf_lowByte (w : BusWord) : zeroOf (lowByte w) = decide (w.toNat % 256 = 0) := by
  rw [← decide_toNat_eq_zeroOf, lowByte_toNat]

theorem zeroOf_lowByte_busSum_iff (x y : Byte) :
    zeroOf (lowByte (busSum x y)) = true ↔ x.toNat + y.toNat = 0 ∨ x.toNat + y.toNat = 256 := by
  rw [zeroOf_lowByte, decide_eq_true_iff, busSum_toNat]
  have := x.isLt; have := y.isLt
  omega

theorem zeroOf_lowByte_busDifference_iff (x y : Byte) : zeroOf (lowByte (busDifference x y)) = true ↔ x = y := by
  rw [zeroOf_lowByte, decide_eq_true_iff, busDifference_toNat, ← BitVec.toNat_inj]
  have := x.isLt; have := y.isLt
  omega

/-! ## The common end of ADD and SUB, by the number on the bus (R69, R70) -/

theorem keepResult_eq_ofNat (w : BusWord) (s : State) :
    keepResult w s =
      { s with bus := w, a := BitVec.ofNat 8 w.toNat, cf := w.getLsbD 8, zf := decide (w.toNat % 256 = 0) } := by
  rw [keepResult_eq, ofNat_toNat_eq_lowByte, zeroOf_lowByte, carryOf]

end Sys2Proof.Machine
end

section
/-! The family of spec/42_arithmetic.md: ADD and SUB copy the operand's cell to `B` and keep the 9-bit result, its carry and its zero. -/

namespace Sys2Proof.Proofs

open Sys2Proof.Machine

/-- Settles O12: the word is the sum on the bus, which nine bits hold whole. -/
theorem addWritesSumAndFlags : Obligations.AddWritesSumAndFlags := by
  intro a s
  refine ⟨busSum s.a (readCell s a), decodeByte_encodeByte (.add a), rfl, busSum_toNat s.a (readCell s a), ?_⟩
  calc exec (.add a) s
      = .next (keepResult (busSum s.a (readCell s a)) ((s.setMar a).setB (readCell s a))) := exec_eq (.add a) s
    _ = _ := by rw [keepResult_eq_ofNat]; rfl

/-- Settles O13: the word is the difference on the bus, the integer difference modulo 512. -/
theorem subWritesDifferenceAndFlags : Obligations.SubWritesDifferenceAndFlags := by
  intro a s
  have hword := busDifference_toNat s.a (readCell s a)
  refine ⟨busDifference s.a (readCell s a), decodeByte_encodeByte (.sub a), rfl, by omega, ?_⟩
  calc exec (.sub a) s
      = .next (keepResult (busDifference s.a (readCell s a)) ((s.setMar a).setB (readCell s a))) := exec_eq (.sub a) s
    _ = _ := by rw [keepResult_eq_ofNat]; rfl

/-- Settles O14: `CF` is bit 8 of the result. -/
theorem carryLawOfAddAndSub : Obligations.CarryLawOfAddAndSub := by
  intro a s
  exact ⟨⟨effect (.add a) s, exec_eq (.add a) s, carryOf_busSum_iff s.a (readCell s a)⟩,
    ⟨effect (.sub a) s, exec_eq (.sub a) s, carryOf_busDifference_iff s.a (readCell s a)⟩⟩

/-- Settles O15: `ZF` is the test of the result's low byte, which the new `A` is. -/
theorem zeroLawOfAddAndSub : Obligations.ZeroLawOfAddAndSub := by
  intro a s
  exact ⟨⟨effect (.add a) s, exec_eq (.add a) s, zeroOf_iff _, zeroOf_lowByte_busSum_iff s.a (readCell s a)⟩,
    ⟨effect (.sub a) s, exec_eq (.sub a) s, zeroOf_iff _, zeroOf_lowByte_busDifference_iff s.a (readCell s a)⟩⟩

end Sys2Proof.Proofs
end

section
/-! What the jumps do and leave (spec/43_jumps.md rules R75 to R79): the operand form by the number on the bus, and what an Execute stage
with a jump's opcode leaves of the flags and the other registers. -/

namespace Sys2Proof.Machine

/-- All that a taken jump does but for its flag, by the number of its byte (R43, R44, R78). -/
theorem jumpTo_eq_ofNat (i : Instr) (s : State) :
    jumpTo i s = { s with bus := BitVec.ofNat 9 (16 * (opcodeOf i).toNat + (operandOf i).toNat), pc := operandOf i } := by
  rw [jumpTo_eq, zextByte_encodeByte_eq_ofNat]

/-- JC leaves `CF` clear, taken or not (R76, R79). -/
theorem effect_cf_of_opcode_seven {i : Instr} (s : State) (h : (opcodeOf i).toNat = 7) : (effect i s).cf = false := by
  cases i with
  | jc _ => rfl
  | _ => simp [opcodeOf] at h

/-- JZ leaves `ZF` clear, taken or not (R77, R79). -/
theorem effect_zf_of_opcode_eight {i : Instr} (s : State) (h : (opcodeOf i).toNat = 8) : (effect i s).zf = false := by
  cases i with
  | jz _ => rfl
  | _ => simp [opcodeOf] at h

/-- A conditional jump writes `PC`, its flag and `BUS` at most (R76, R77). -/
theorem effect_frame_of_conditional_jump {i : Instr} (s : State) (h : (opcodeOf i).toNat = 7 ∨ (opcodeOf i).toNat = 8) :
    (effect i s).a = s.a ∧ (effect i s).b = s.b ∧ (effect i s).out = s.out ∧ (effect i s).mar = s.mar ∧
      (effect i s).mem = s.mem := by
  cases i with
  | jc _ | jz _ => exact ⟨rfl, rfl, rfl, rfl, rfl⟩
  | _ => simp [opcodeOf] at h

end Sys2Proof.Machine
end

section
/-! The family of spec/43_jumps.md: where the jumps go, which flag a conditional jump tests, and that it clears it. -/

namespace Sys2Proof.Proofs

open Sys2Proof.Machine Sys2Proof.Safety

/-- Settles O22: `PC` is O23's; which cycles keep a flag, and which can set it, follows from O24's list of the flag's writers, of which
the conditional jump only clears it. -/
theorem conditionalJumpsAreOneShot : Obligations.ConditionalJumpsAreOneShot := by
  intro s
  obtain ⟨t, hstep, -, -, hcfWriters, hzfWriters, -⟩ := onlyTheNamedInstructionsWrite s
  obtain ⟨u, hstep', hpc, -⟩ := pcMarAndIrAfterACycle s
  obtain rfl : t = u := Host.Outcome.next.inj (hstep.symm.trans hstep')
  obtain rfl : afterCycle s = t := Host.Outcome.next.inj ((step_eq s).symm.trans hstep)
  have hop := opcodeOf_fetchedInstr_toNat s
  have hcfClear (h : opcodeAt s = 7) : (afterCycle s).cf = false := effect_cf_of_opcode_seven (fetch s) (hop.trans h)
  have hzfClear (h : opcodeAt s = 8) : (afterCycle s).zf = false := effect_zf_of_opcode_eight (fetch s) (hop.trans h)
  refine ⟨afterCycle s, hstep, fun h => ⟨hcfClear h, ?_, ?_⟩, fun h => ⟨hzfClear h, ?_, ?_⟩, fun h => ?_,
    fun hs ht => ?_, fun hs ht => ?_⟩
  · by_contra hne
    have := hzfWriters hne
    omega
  · simpa [h] using hpc
  · by_contra hne
    have := hcfWriters hne
    omega
  · simpa [h] using hpc
  · obtain ⟨ha, hb, hout, hmar, hmem⟩ := effect_frame_of_conditional_jump (fetch s) (by rwa [hop])
    exact ⟨ha, hb, hout, hmar.trans (by rw [fetch_eq]), hmem⟩
  · have hwriters := hcfWriters (by simp [hs, ht])
    have hnotJc : opcodeAt s ≠ 7 := fun h => by simp [hcfClear h] at ht
    omega
  · have hwriters := hzfWriters (by simp [hs, ht])
    have hnotJz : opcodeAt s ≠ 8 := fun h => by simp [hzfClear h] at ht
    omega

/-- Settles O16: the byte 0x60 | a is the encoding of JMP a, and the jump leaves it on the bus. -/
theorem jmpGoesToTarget : Obligations.JmpGoesToTarget := by
  intro a s
  refine ⟨decodeByte_encodeByte (.jmp a), rfl, ?_⟩
  calc exec (.jmp a) s
      = .next (jumpTo (.jmp a) s) := rfl
    _ = _ := by rw [jumpTo_eq_ofNat]; rfl

/-- Settles O17: each conditional jump is a taken jump with its flag cleared, or nothing. -/
theorem conditionalJumpsTestTheirFlag : Obligations.ConditionalJumpsTestTheirFlag := by
  intro a s
  refine ⟨rfl, rfl, ?_, ?_⟩
  · calc exec (.jc a) s
        = .next (if s.cf then (jumpTo (.jc a) s).setCf false else s) := rfl
      _ = _ := by rw [jumpTo_eq_ofNat]; rfl
  · calc exec (.jz a) s
        = .next (if s.zf then (jumpTo (.jz a) s).setZf false else s) := rfl
      _ = _ := by rw [jumpTo_eq_ofNat]; rfl

end Sys2Proof.Proofs
end

section
/-! What NOP, HLT and the reserved opcodes leave to Fetch (spec/44_nop_out_hlt_reserved.md rules R80 to R83), the status of a cycle by
its opcode, and the run of a memory that holds nothing but NOPs (R114). -/

namespace Sys2Proof.Machine

open Sys2Proof.Safety

/-! ## Cycles whose Execute stage writes nothing -/

/-- NOP, HLT and the reserved opcodes have no effect of their own (R80, R82, R83). -/
theorem effect_eq_self_of_opcode {i : Instr} (s : State)
    (h : (opcodeOf i).toNat = 0 ∨ (9 ≤ (opcodeOf i).toNat ∧ (opcodeOf i).toNat ≠ 14)) : effect i s = s := by
  cases i with
  | nop _ | hlt _ | reserved9 _ | reserved10 _ | reserved11 _ | reserved12 _ | reserved13 _ => rfl
  | _ => simp [opcodeOf] at h

/-- Their cycle is Fetch alone (R54). -/
theorem afterCycle_eq_fetch_of_opcode {s : State} (h : opcodeAt s = 0 ∨ (9 ≤ opcodeAt s ∧ opcodeAt s ≠ 14)) :
    afterCycle s = fetch s :=
  effect_eq_self_of_opcode (fetch s) (by rwa [opcodeOf_fetchedInstr_toNat])

theorem onlyFetched_afterCycle_of_opcode {s : State} (h : opcodeAt s = 0 ∨ (9 ≤ opcodeAt s ∧ opcodeAt s ≠ 14)) :
    OnlyFetched s (afterCycle s) := by
  rw [afterCycle_eq_fetch_of_opcode h]
  exact (Proofs.fetchWritesBusMarIrAndPc s).left

/-- The status of a cycle, by the opcode it fetches (R59). -/
theorem cycleStatus_eq_of_opcodeAt (s : State) :
    cycleStatus s =
      if opcodeAt s = 15 then .halted else if 9 ≤ opcodeAt s ∧ opcodeAt s ≤ 13 then .invalidOpcode else .cont := by
  rw [cycleStatus_eq_fetchedInstr, returnedStatus_eq, opcodeOf_fetchedInstr_toNat]

/-! ## Runs -/

/-- A run goes on after a cycle that returns `Continue` (R60, R122). -/
theorem run_succ_of_cont {s : State} (h : cycleStatus s = .cont) (k : Nat) :
    run (k + 1) s = seenFirst (observe (afterCycle s) .cont) (run k (afterCycle s)) := by
  simp [run, invoke_eq, h, isTerminal]

/-- `k` Fetches in a row move `PC` on by `k` addresses modulo 16, and keep what one Fetch keeps (R54, R55). -/
theorem fetch_iterate_frame (k : Nat) (s : State) :
    (fetch^[k] s).pc.toNat = (s.pc.toNat + k) % 16 ∧ (fetch^[k] s).a = s.a ∧ (fetch^[k] s).b = s.b ∧
      (fetch^[k] s).out = s.out ∧ (fetch^[k] s).cf = s.cf ∧ (fetch^[k] s).zf = s.zf ∧ (fetch^[k] s).mem = s.mem := by
  induction k generalizing s with
  | zero => exact ⟨(Nat.mod_eq_of_lt s.pc.isLt).symm, rfl, rfl, rfl, rfl, rfl, rfl⟩
  | succ k ih =>
    obtain ⟨⟨-, -, -, -, hpc, ha, hb, hout, hcf, hzf, hmem⟩, -⟩ := Proofs.fetchWritesBusMarIrAndPc s
    obtain ⟨ihpc, iha, ihb, ihout, ihcf, ihzf, ihmem⟩ := ih (fetch s)
    refine ⟨?_, iha.trans ha, ihb.trans hb, ihout.trans hout, ihcf.trans hcf, ihzf.trans hzf, ihmem.trans hmem⟩
    rw [Function.iterate_succ_apply, ihpc, hpc]
    omega

/-- A memory of NOPs, whatever their low nibbles, is run by Fetches alone: memory never changes, so every byte fetched is a NOP (R80,
R114). -/
theorem run_eq_running_of_nops (k : Nat) {s : State} (h : ∀ x : Nibble, (readCell s x).toNat ≤ 0x0F) :
    ∃ seen, run k s = .running (fetch^[k] s) seen := by
  induction k generalizing s with
  | zero => exact ⟨[], rfl⟩
  | succ k ih =>
    have hop : opcodeAt s = 0 := Nat.div_eq_of_lt (Nat.lt_succ_of_le (h s.pc))
    have hstatus : cycleStatus s = .cont := by simp [cycleStatus_eq_of_opcodeAt, hop]
    have hcells : ∀ x : Nibble, (readCell (fetch s) x).toNat ≤ 0x0F := by rw [fetch_eq]; exact h
    obtain ⟨seen, hrun⟩ := ih hcells
    rw [run_succ_of_cont hstatus, afterCycle_eq_fetch_of_opcode (.inl hop), hrun]
    exact ⟨_, rfl⟩

end Sys2Proof.Machine
end

section
/-! The family of spec/44_nop_out_hlt_reserved.md: OUT copies `A` to `OUT`; NOP, HLT and the reserved opcodes add nothing to Fetch but
their status. -/

namespace Sys2Proof.Proofs

open Sys2Proof.Machine Sys2Proof.Safety

/-- Settles O18: the effect of OUT, with the accumulator left on the bus. -/
theorem outShowsAccumulator : Obligations.OutShowsAccumulator := by
  intro x s
  exact ⟨rfl, zextByte s.a, exec_eq (.out x) s⟩

/-- Settles O21: each range of bytes is a range of opcodes, which decides both the state and the status. -/
theorem nopReservedAndHltCyclesOnlyFetch : Obligations.NopReservedAndHltCyclesOnlyFetch := by
  intro s
  have hopcode : opcodeAt s = (readCell s s.pc).toNat / 16 := rfl
  have hbyte := (readCell s s.pc).isLt
  refine ⟨afterCycle s, cycleStatus s, invoke_eq s, fun hle => ?_, fun hge hle => ?_, fun hge => ?_⟩
  · have hop : opcodeAt s = 0 := by omega
    exact ⟨onlyFetched_afterCycle_of_opcode (.inl hop), by simp [cycleStatus_eq_of_opcodeAt, hop]⟩
  · have hop : 9 ≤ opcodeAt s ∧ opcodeAt s ≤ 13 := by omega
    refine ⟨onlyFetched_afterCycle_of_opcode (.inr (by omega)), ?_⟩
    rw [cycleStatus_eq_of_opcodeAt, if_neg (by omega), if_pos hop]
  · have hop : opcodeAt s = 15 := by omega
    exact ⟨onlyFetched_afterCycle_of_opcode (.inr (by omega)), by simp [cycleStatus_eq_of_opcodeAt, hop]⟩

/-- Settles O37: a run of `k` cycles is `k` Fetches and still running, so it has not ended for any `k`. -/
theorem memoryOfNopsRunsForEver : Obligations.MemoryOfNopsRunsForEver := by
  intro s hnops
  have hnotEnded (k : Nat) (t : State) (st : Status) (seen : List Observation) : run k s ≠ .ended t st seen := by
    obtain ⟨seen', hrun⟩ := run_eq_running_of_nops k hnops
    simp [hrun]
  refine ⟨fun ⟨k, t, seen, hend⟩ => hnotEnded k t _ seen hend, fun ⟨k, t, seen, hend⟩ => hnotEnded k t _ seen hend, fun k => ?_⟩
  obtain ⟨seen, hrun⟩ := run_eq_running_of_nops k hnops
  exact ⟨fetch^[k] s, seen, hrun, fetch_iterate_frame k s⟩

/-- Settles O19: each of the seven has the state it is given as its effect. -/
theorem nopHltAndReservedChangeNothing : Obligations.NopHltAndReservedChangeNothing := by
  intro x s
  exact ⟨⟨exec_eq (.nop x) s, rfl⟩, ⟨exec_eq (.hlt x) s, rfl⟩, ⟨exec_eq (.reserved9 x) s, rfl⟩,
    ⟨exec_eq (.reserved10 x) s, rfl⟩, ⟨exec_eq (.reserved11 x) s, rfl⟩, ⟨exec_eq (.reserved12 x) s, rfl⟩,
    ⟨exec_eq (.reserved13 x) s, rfl⟩⟩

end Sys2Proof.Proofs
end

section
/-! The host's moves, said once (spec/45_host_interface.md rules R86 to R90): what a load leaves in each cell, what a save returns, and
what the moves keep. -/

namespace Sys2Proof.Machine

open Sys2Proof.Safety

/-! ## Load (R88) -/

/-- A load from cell `n` on: cell `n + i` takes byte `i`; the cells below `n`, and those past the last byte, are as before. -/
theorem readCell_loadFrom (bytes : List Byte) (n : Nat) (s : State) (x : Nibble) :
    readCell (loadFrom n bytes s) x =
      if n ≤ x.toNat then (bytes[x.toNat - n]?).getD (readCell s x) else readCell s x := by
  induction bytes generalizing n s with
  | nil => simp [loadFrom]
  | cons v vs ih =>
    rw [loadFrom]
    split
    case isTrue hn =>
      have hcell : BitVec.ofNat 4 n = x ↔ n = x.toNat := by
        rw [← BitVec.toNat_inj, BitVec.toNat_ofNat, Nat.mod_eq_of_lt (show n < 2 ^ 4 from hn)]
      rw [ih, readCell_writeCell]
      simp only [hcell]
      rcases Nat.lt_trichotomy x.toNat n with hlt | heq | hgt
      · rw [if_neg (by omega), if_neg (by omega), if_neg (by omega)]
      · simp [heq]
      · have hindex : x.toNat - n = (x.toNat - (n + 1)) + 1 := by omega
        rw [if_pos (Nat.succ_le_of_lt hgt), if_neg (by omega), if_pos (by omega), hindex, List.getElem?_cons_succ]
    case isFalse hn =>
      have hx : x.toNat < Config.memCells := x.isLt
      rw [if_neg (by omega)]

/-- A load is a row of stores, each of which keeps the canonical form (R22, R88). -/
theorem loadFrom_mem_wf (bytes : List Byte) (n : Nat) {s : State} (hs : s.mem.wf = true) :
    (loadFrom n bytes s).mem.wf = true := by
  induction bytes generalizing n s with
  | nil => exact hs
  | cons v vs ih =>
    rw [loadFrom]
    split
    · exact ih (n + 1) (writeCell_wf hs (BitVec.ofNat 4 n) v)
    · exact hs

theorem readCell_load (bytes : List Byte) (s : State) (x : Nibble) :
    readCell (load bytes s) x = (bytes[x.toNat]?).getD (readCell s x) := by
  rw [load, readCell_loadFrom, if_pos (Nat.zero_le _), Nat.sub_zero]

theorem load_mem_wf (bytes : List Byte) {s : State} (hs : s.mem.wf = true) : (load bytes s).mem.wf = true :=
  loadFrom_mem_wf bytes 0 hs

theorem load_eq_setMem (bytes : List Byte) (s : State) : ∃ m, load bytes s = s.setMem m :=
  loadFrom_eq_setMem bytes 0 s

/-! ## Save (R89) -/

theorem save_some_eq_take (c : Nat) (s : State) : save (some c) s = (save none s).take c := rfl

theorem save_none_length (s : State) : (save none s).length = 16 := by
  rw [save, List.length_map, List.length_range, Config.memCells]

theorem save_none_getElem? (s : State) (x : Nibble) : (save none s)[x.toNat]? = some (readCell s x) := by
  have hx : x.toNat < Config.memCells := x.isLt
  rw [save, List.getElem?_map, List.getElem?_range hx, Option.map_some, BitVec.ofNat_toNat, BitVec.setWidth_eq]

/-! ## Canonical memories by their sixteen cells (R22) -/

/-- A canonical memory lists no address above 15. -/
theorem cellAt_of_memCells_le {m : Memory} {lo : Nat} (hm : Memory.wfFrom lo m = true) {x : Nat} (hx : Config.memCells ≤ x) :
    cellAt m x = Config.blankByte := by
  induction m generalizing lo with
  | nil => rfl
  | cons c m ih =>
    obtain ⟨-, hlt, -, htail⟩ := Memory.wfFrom_cons.mp hm
    rw [cellAt, if_neg (by omega)]
    exact ih htail

/-- Canonical memories that agree in the sixteen cells are the same list. -/
theorem mem_eq_of_readCell_eq {s t : State} (hs : s.mem.wf = true) (ht : t.mem.wf = true)
    (h : ∀ x : Nibble, readCell s x = readCell t x) : s.mem = t.mem := by
  refine wfFrom_ext hs ht fun n => ?_
  rcases Nat.lt_or_ge n Config.memCells with hn | hn
  · exact h (BitVec.ofNatLT n hn)
  · rw [cellAt_of_memCells_le hs hn, cellAt_of_memCells_le ht hn]

/-! ## What the moves keep -/

/-- Every host move keeps memory canonical: memory is cleared, or stored to cell by cell (R87, R88, R90). -/
theorem applyMove_mem_wf (m : HostMove) {s : State} (hs : s.mem.wf = true) : (applyMove m s).mem.wf = true := by
  cases m with
  | resetRegisters => exact hs
  | resetMemory => exact reset_mem_wf
  | load bytes => exact load_mem_wf bytes hs
  | writeCell x v => exact writeCell_wf hs x v
  | setPacing _ => exact hs

/-- The register reset is the only host move that writes a register (R86 to R90, R96). -/
theorem applyMove_eq_setMem {m : HostMove} (h : m ≠ .resetRegisters) (s : State) : ∃ mem, applyMove m s = s.setMem mem := by
  cases m with
  | resetRegisters => exact absurd rfl h
  | load bytes => exact load_eq_setMem bytes s
  | _ => exact ⟨_, rfl⟩

/-- The register reset clears the bus; every other move keeps the bus, `CF` and `IR`, of which rule R64 speaks. -/
theorem applyMove_busBitEightFromAlu (m : HostMove) {s : State} (hs : BusBitEightFromAlu s) :
    BusBitEightFromAlu (applyMove m s) := by
  by_cases hm : m = .resetRegisters
  · subst hm
    exact fun h => absurd h (by simp [applyMove, resetRegisters])
  · obtain ⟨mem, hmem⟩ := applyMove_eq_setMem hm s
    rw [hmem]
    exact hs

end Sys2Proof.Machine
end

section
/-! The family of spec/45_host_interface.md: what the host's resets, loads and saves do between cycles, and that every move keeps the
invariant. -/

namespace Sys2Proof.Proofs

open Sys2Proof.Machine Sys2Proof.Safety

/-- Settles O30: the memory part by the stores that the moves are made of, the bus part by the registers that they keep. -/
theorem hostMovesKeepInvariant : Obligations.HostMovesKeepInvariant := by
  rintro m s ⟨hmem, hbus⟩
  exact ⟨applyMove_mem_wf m hmem, applyMove_busBitEightFromAlu m hbus⟩

/-- Settles O33: the load from cell 0 on. -/
theorem loadCopiesAtMostSixteenBytes : Obligations.LoadCopiesAtMostSixteenBytes :=
  fun bytes s => ⟨readCell_load bytes s, load_eq_setMem bytes s⟩

/-- Settles O34: a capacity cuts the sixteen cells that a save without limit returns. -/
theorem saveReturnsCellsInOrder : Obligations.SaveReturnsCellsInOrder := by
  intro s
  refine ⟨save_none_length s, fun c => ⟨?_, fun x hx => ?_⟩, save_none_getElem? s⟩
  · rw [save_some_eq_take, List.length_take, save_none_length]
  · rw [save_some_eq_take, List.getElem?_take_of_lt hx, save_none_getElem?]

/-- Settles O35: the load leaves in each of the sixteen cells the byte that the save read there, and canonical memories that read alike
are the same list. -/
theorem loadOfSavedMemoryRestoresIt : Obligations.LoadOfSavedMemoryRestoresIt := by
  intro s s' hs hs'
  refine mem_eq_of_readCell_eq (load_mem_wf (save none s) hs') hs fun x => ?_
  rw [readCell_load, save_none_getElem?, Option.getD_some]

/-- Settles O32: each reset writes the fields it names; the cleared memory lists no cell, so each reads as 0x00. -/
theorem resetsZeroRegistersOrMemory : Obligations.ResetsZeroRegistersOrMemory :=
  fun _ => ⟨rfl, fun _ => rfl, [], rfl⟩

end Sys2Proof.Proofs
end

section
/-! How a bounded run can come out (spec/70_reset_and_hazards.md rule R122): what `run` answers, cycle by cycle, and what that says of
the observations of the whole run. -/

namespace Sys2Proof.Machine

/-! ## The first cycle of a run -/

/-- The statuses that end a run are all but `Continue` (R59, R93). -/
theorem isTerminal_eq_false_iff {st : Status} : isTerminal st = false ↔ st = .cont := by
  cases st <;> decide

/-- A run ends with a cycle that returns a terminal status (R93, R122). -/
theorem run_succ_of_terminal {s : State} (h : isTerminal (cycleStatus s) = true) (k : Nat) :
    run (k + 1) s = .ended (afterCycle s) (cycleStatus s) [observe (afterCycle s) (cycleStatus s)] := by
  rw [run, invoke_eq]
  exact if_pos h

/-! ## The whole run -/

/-- What the result of a run of at most `k` cycles says of its observations: a terminal status is the last one seen, and every other is
`Continue` (R122). `run_endsAtFirstTerminal` ties it to the model. -/
def RunResult.EndsAtFirstTerminal (k : Nat) : RunResult → Prop
  | .ended t st seen => isTerminal st = true ∧ seen.length ≤ k ∧ seen.getLast? = some (observe t st) ∧
      ∀ o ∈ seen.dropLast, o.status = .cont
  | .running _ seen => seen.length = k ∧ ∀ o ∈ seen, o.status = .cont
  | .stopped _ => False

/-- A cycle that returns `Continue` may stand before any run. -/
theorem RunResult.EndsAtFirstTerminal.seenFirst {k : Nat} {r : RunResult} (hr : r.EndsAtFirstTerminal k) {o : Observation}
    (ho : o.status = .cont) : (seenFirst o r).EndsAtFirstTerminal (k + 1) := by
  cases r with
  | ended t st seen =>
    obtain ⟨hterminal, hlength, hlast, hbefore⟩ := hr
    have hne : seen ≠ [] := by rintro rfl; cases hlast
    refine ⟨hterminal, Nat.succ_le_succ hlength, ?_, ?_⟩
    · rw [List.getLast?_cons_of_ne_nil hne, hlast]
    · rw [List.dropLast_cons_of_ne_nil hne]
      exact List.forall_mem_cons.mpr ⟨ho, hbefore⟩
  | running t seen =>
    obtain ⟨hlength, hcont⟩ := hr
    exact ⟨congrArg Nat.succ hlength, List.forall_mem_cons.mpr ⟨ho, hcont⟩⟩
  | stopped seen => exact hr

/-- Every run looks at its cycles in order, and the first terminal status is the last thing it sees. -/
theorem run_endsAtFirstTerminal (k : Nat) (s : State) : (run k s).EndsAtFirstTerminal k := by
  induction k generalizing s with
  | zero => exact ⟨rfl, List.forall_mem_nil _⟩
  | succ k ih =>
    cases hterminal : isTerminal (cycleStatus s) with
    | true =>
      rw [run_succ_of_terminal hterminal]
      exact ⟨hterminal, Nat.succ_le_succ (Nat.zero_le k), rfl, List.forall_mem_nil _⟩
    | false =>
      rw [run_succ_of_cont (isTerminal_eq_false_iff.mp hterminal)]
      exact (ih (afterCycle s)).seenFirst rfl

end Sys2Proof.Machine
end

section
/-! The family of spec/70_reset_and_hazards.md: a run ends at its first terminal status, and in no other way. -/

namespace Sys2Proof.Proofs

open Sys2Proof.Machine

/-- Settles O36: the three ways a run could come out, read off what is known of its result. -/
theorem runEndsAtFirstTerminalStatus : Obligations.RunEndsAtFirstTerminalStatus := by
  intro k s
  have hrun := run_endsAtFirstTerminal k s
  refine ⟨fun t st seen h => ?_, fun t seen h => ?_, fun seen h => ?_⟩
  all_goals rw [h] at hrun; exact hrun

end Sys2Proof.Proofs
end


section
/-! The bus after the moves of spec/40_instruction_cycle.md section 8 whose bus value the source leaves open: the spec's decision D3, that
the moved byte is left there. -/

namespace Sys2Proof.Proofs

open Sys2Proof.Machine

/-- An instruction whose effect leaves a byte on the bus completes with that byte's value there. -/
theorem exec_bus_toNat_of_effect_bus {i : Instr} {s : State} {w : Byte} (h : (effect i s).bus = zextByte w) :
    ∃ t, exec i s = .next t ∧ t.bus.toNat = w.toNat :=
  ⟨effect i s, exec_eq i s, by rw [h, zextByte_toNat]⟩

/-- Settles O20: the last bus write of LDA is the cell's byte, and that of STA and of OUT is the accumulator. -/
theorem busAfterLdaStaAndOut : Obligations.BusAfterLdaStaAndOut := by
  intro x s
  have hlda : (effect (.lda x) s).bus = zextByte (readCell s x) := rfl
  have hsta : (effect (.sta x) s).bus = zextByte s.a := rfl
  have hout : (effect (.out x) s).bus = zextByte s.a := rfl
  exact ⟨exec_bus_toNat_of_effect_bus hlda, exec_bus_toNat_of_effect_bus hsta, exec_bus_toNat_of_effect_bus hout⟩

end Sys2Proof.Proofs
end
